-- ==== Sys2Proof/Word.lean ====
section
/-! DEFINITION. The value types of the machine: 8-bit registers and memory cells, 16-bit words, register numbers
(spec/00_scope.md R1, R3). Helpers that cut or join bits live in Decode.lean and under Machine/. -/

namespace Sys2Proof

/-- An 8-bit value: a V register, a timer, a memory cell (R1). -/
abbrev Byte := BitVec 8

/-- A 16-bit value: PC, I, a stack entry, an instruction word (R1, R60). -/
abbrev Word := BitVec 16

/-- A register number 0 to 15, naming V0 to VF (R11); also a key code (R20). -/
abbrev Reg := Fin 16

/-- VF, register 15, the only flag of the machine (R12). -/
abbrev Reg.vf : Reg := 15

end Sys2Proof
end

