-- ==== Sys2Proof/Syntax.lean ====
section
/-! DEFINITION. The 35 instructions as one inductive type, one constructor per row of spec/opcode_table.json, and the
opcode map itself as data (spec/30_encoding.md R61 to R65). -/

namespace Sys2Proof

/-- One constructor per row of the opcode map, in the order of its rows (R65). Register fields f2 and f3 are register
numbers, addr and imm are the 12-bit and 8-bit views, n is the 4-bit count (R61). Every value of every field is a
legal operand (R63). -/
inductive Instr where
  | nop
  | cls
  | ret
  | jmp     (addr : BitVec 12)
  | call    (addr : BitVec 12)
  | seImm   (x : Reg) (imm : Byte)
  | sneImm  (x : Reg) (imm : Byte)
  | seReg   (x y : Reg)
  | ldImm   (x : Reg) (imm : Byte)
  | addImm  (x : Reg) (imm : Byte)
  | ldReg   (x y : Reg)
  | or      (x y : Reg)
  | and     (x y : Reg)
  | xor     (x y : Reg)
  | addReg  (x y : Reg)
  | sub     (x y : Reg)
  | shr     (x y : Reg)
  | subn    (x y : Reg)
  | shl     (x y : Reg)
  | sneReg  (x y : Reg)
  | ldI     (addr : BitVec 12)
  | jmpV0   (addr : BitVec 12)
  | rnd     (x : Reg) (imm : Byte)
  | draw    (x y : Reg) (n : Fin 16)
  | skp     (x : Reg)
  | sknp    (x : Reg)
  | ldVxDt  (x : Reg)
  | ldVxKey (x : Reg)
  | ldDtVx  (x : Reg)
  | ldStVx  (x : Reg)
  | addI    (x : Reg)
  | ldIFont (x : Reg)
  | bcd     (x : Reg)
  | store   (x : Reg)
  | load    (x : Reg)
  deriving DecidableEq, Repr

/-- An operand field of the instruction word (R61). -/
inductive Field where
  | f2 | f3 | addr | imm | n
  deriving DecidableEq, Repr

/-- The lowest bit of a field (R61). -/
def Field.lo : Field → Nat
  | .f2 => 8
  | .f3 => 4
  | .addr => 0
  | .imm => 0
  | .n => 0

/-- The number of bits of a field (R61). -/
def Field.width : Field → Nat
  | .f2 => 4
  | .f3 => 4
  | .addr => 12
  | .imm => 8
  | .n => 4

/-- The six shapes of instruction words (R62). -/
inductive Format where
  | z | a | xi | xy | xyn | x
  deriving DecidableEq, Repr

/-- The operand fields of a format, in the order an instruction names its operands (R62). -/
def Format.fields : Format → List Field
  | .z => []
  | .a => [.addr]
  | .xi => [.f2, .imm]
  | .xy => [.f2, .f3]
  | .xyn => [.f2, .f3, .n]
  | .x => [.f2]

/-- The mask of a format: the bits its pattern fixes (R64). -/
def Format.mask : Format → Word
  | .z => 0xFFFF
  | .a => 0xF000
  | .xi => 0xF000
  | .xy => 0xF00F
  | .xyn => 0xF000
  | .x => 0xF0FF

/-- One row of the opcode map: its unique mnemonic, its format and its match value (R65). -/
structure OpcodeRow where
  mnemonic : String
  format : Format
  value : Word
  deriving DecidableEq, Repr

/-- The row selects the word: `(w & M) = K` (R64). -/
def OpcodeRow.selects (r : OpcodeRow) (w : Word) : Bool :=
  w &&& r.format.mask == r.value

/-- The opcode map, rows 1 to 20 (R65). -/
def opcodeMapLow : List OpcodeRow :=
  [⟨"NOP", .z, 0x0000⟩, ⟨"CLS", .z, 0x00E0⟩, ⟨"RET", .z, 0x00EE⟩, ⟨"JMP", .a, 0x1000⟩, ⟨"CALL", .a, 0x2000⟩,
   ⟨"SE_IMM", .xi, 0x3000⟩, ⟨"SNE_IMM", .xi, 0x4000⟩, ⟨"SE_REG", .xy, 0x5000⟩, ⟨"LD_IMM", .xi, 0x6000⟩,
   ⟨"ADD_IMM", .xi, 0x7000⟩, ⟨"LD_REG", .xy, 0x8000⟩, ⟨"OR", .xy, 0x8001⟩, ⟨"AND", .xy, 0x8002⟩,
   ⟨"XOR", .xy, 0x8003⟩, ⟨"ADD_REG", .xy, 0x8004⟩, ⟨"SUB", .xy, 0x8005⟩, ⟨"SHR", .xy, 0x8006⟩,
   ⟨"SUBN", .xy, 0x8007⟩, ⟨"SHL", .xy, 0x800E⟩, ⟨"SNE_REG", .xy, 0x9000⟩]

/-- The opcode map, rows 21 to 35 (R65). -/
def opcodeMapHigh : List OpcodeRow :=
  [⟨"LD_I", .a, 0xA000⟩, ⟨"JMP_V0", .a, 0xB000⟩, ⟨"RND", .xi, 0xC000⟩, ⟨"DRAW", .xyn, 0xD000⟩,
   ⟨"SKP", .x, 0xE09E⟩, ⟨"SKNP", .x, 0xE0A1⟩, ⟨"LD_VX_DT", .x, 0xF007⟩, ⟨"LD_VX_KEY", .x, 0xF00A⟩,
   ⟨"LD_DT_VX", .x, 0xF015⟩, ⟨"LD_ST_VX", .x, 0xF018⟩, ⟨"ADD_I", .x, 0xF01E⟩, ⟨"LD_I_FONT", .x, 0xF029⟩,
   ⟨"BCD", .x, 0xF033⟩, ⟨"STORE", .x, 0xF055⟩, ⟨"LOAD", .x, 0xF065⟩]

/-- The opcode map: 35 rows, in the order of the source's table (R65). -/
def opcodeMap : List OpcodeRow := opcodeMapLow ++ opcodeMapHigh

end Sys2Proof
end

