-- ==== Sys2Proof/Decode.lean ====
section
/-! DEFINITION. The fields of an instruction word, the decoder (total, rejecting by name) and the encoder
(spec/30_encoding.md R60 to R67). -/

namespace Sys2Proof

/-- Why bytes are not an instruction. -/
inductive DecodeError where
  /-- Fewer than the two bytes every instruction has (R60). -/
  | truncated (count : Nat)
  /-- The word matches no row of the opcode map (R66). -/
  | unknownOpcode (w : Word)
  deriving DecidableEq, Repr

/-! ## Bytes and fields -/

/-- An instruction word from its two bytes: the byte at the lower address is the high byte (R43, R45). -/
def wordOfBytes (b0 b1 : Byte) : Word := b0 ++ b1

/-- `w[15:8]`, the byte of an instruction word that lies at the lower address (R45). -/
def highByte (w : Word) : Byte := w.extractLsb' 8 8

/-- `w[7:0]`, the byte of an instruction word that lies at the higher address (R45). -/
def lowByte (w : Word) : Byte := w.extractLsb' 0 8

/-- f1 = w[15:12], the primary opcode (R61). -/
def f1 (w : Word) : BitVec 4 := w.extractLsb' 12 4

/-- f2 = w[11:8] (R61). -/
def f2 (w : Word) : BitVec 4 := w.extractLsb' 8 4

/-- f3 = w[7:4] (R61). -/
def f3 (w : Word) : BitVec 4 := w.extractLsb' 4 4

/-- f4 = w[3:0] (R61). -/
def f4 (w : Word) : BitVec 4 := w.extractLsb' 0 4

/-- addr = w[11:0] (R61). -/
def addrField (w : Word) : BitVec 12 := w.extractLsb' 0 12

/-- imm = w[7:0] (R61). -/
def immField (w : Word) : Byte := w.extractLsb' 0 8

/-- A nibble used directly as a register number or a count (R63). -/
def nibbleReg (b : BitVec 4) : Fin 16 := ⟨b.toNat, b.isLt⟩

/-- A register number or a count as a nibble. -/
def regNibble (r : Fin 16) : BitVec 4 := BitVec.ofNat 4 r.val

/-! ## Decode -/

/-- f1 = 0: the words 0000, 00E0 and 00EE and no other (R65 rows 1 to 3, R67). -/
def decode0 (w : Word) : Option Instr :=
  if w = 0x0000#16 then some .nop
  else if w = 0x00E0#16 then some .cls
  else if w = 0x00EE#16 then some .ret
  else none

/-- f1 = 8: the two-register instructions, told apart by f4 (R65 rows 11 to 19). -/
def decode8 (x y : Reg) (op : BitVec 4) : Option Instr :=
  match op with
  | 0x0#4 => some (.ldReg x y)
  | 0x1#4 => some (.or x y)
  | 0x2#4 => some (.and x y)
  | 0x3#4 => some (.xor x y)
  | 0x4#4 => some (.addReg x y)
  | 0x5#4 => some (.sub x y)
  | 0x6#4 => some (.shr x y)
  | 0x7#4 => some (.subn x y)
  | 0xE#4 => some (.shl x y)
  | _ => none

/-- f1 = E: the key skips, told apart by w[7:0] (R65 rows 25, 26). -/
def decodeE (x : Reg) (op : Byte) : Option Instr :=
  match op with
  | 0x9E#8 => some (.skp x)
  | 0xA1#8 => some (.sknp x)
  | _ => none

/-- f1 = F: told apart by w[7:0] (R65 rows 27 to 35). -/
def decodeF (x : Reg) (op : Byte) : Option Instr :=
  match op with
  | 0x07#8 => some (.ldVxDt x)
  | 0x0A#8 => some (.ldVxKey x)
  | 0x15#8 => some (.ldDtVx x)
  | 0x18#8 => some (.ldStVx x)
  | 0x1E#8 => some (.addI x)
  | 0x29#8 => some (.ldIFont x)
  | 0x33#8 => some (.bcd x)
  | 0x55#8 => some (.store x)
  | 0x65#8 => some (.load x)
  | _ => none

/-- Decode a word: the instruction whose pattern matches it, or none (R64, R65, R66). -/
def decode (w : Word) : Option Instr :=
  let x := nibbleReg (f2 w)
  let y := nibbleReg (f3 w)
  match f1 w with
  | 0x0#4 => decode0 w
  | 0x1#4 => some (.jmp (addrField w))
  | 0x2#4 => some (.call (addrField w))
  | 0x3#4 => some (.seImm x (immField w))
  | 0x4#4 => some (.sneImm x (immField w))
  | 0x5#4 => if f4 w = 0x0#4 then some (.seReg x y) else none
  | 0x6#4 => some (.ldImm x (immField w))
  | 0x7#4 => some (.addImm x (immField w))
  | 0x8#4 => decode8 x y (f4 w)
  | 0x9#4 => if f4 w = 0x0#4 then some (.sneReg x y) else none
  | 0xA#4 => some (.ldI (addrField w))
  | 0xB#4 => some (.jmpV0 (addrField w))
  | 0xC#4 => some (.rnd x (immField w))
  | 0xD#4 => some (.draw x y (nibbleReg (f4 w)))
  | 0xE#4 => decodeE x (immField w)
  | _ => decodeF x (immField w)

/-- Decode the first instruction of a byte sequence and give the bytes after it; every instruction has two bytes,
high byte first (R60). -/
def decodeBytes : List Byte → Except DecodeError (Instr × List Byte)
  | [] => .error (.truncated 0)
  | [_] => .error (.truncated 1)
  | b0 :: b1 :: rest =>
    match decode (wordOfBytes b0 b1) with
    | some i => .ok (i, rest)
    | none => .error (.unknownOpcode (wordOfBytes b0 b1))

/-- The bytes of an instruction whose bits are w, numbered as spec/opcode_table.json numbers them and zero above
nbits: the first 16-bit word, high byte at the lower address (R45). -/
def tableBytes (nbits w : Nat) : List Byte :=
  let word := BitVec.ofNat 16 (w % 2 ^ nbits)
  [highByte word, lowByte word]

/-- The instruction the decoder reads from an opcode-table word (the host's interface to the decoder). -/
def decodeTableWord (nbits w : Nat) : Option Instr :=
  match decodeBytes (tableBytes nbits w) with
  | .ok (i, _) => some i
  | .error _ => none

/-! ## Encode -/

/-- A format A word: opcode and addr (R62). -/
def wordA (op : BitVec 4) (addr : BitVec 12) : Word := op ++ addr

/-- A format XI word: opcode, f2 and imm; with a fixed low byte also a format X word (R62). -/
def wordXI (op : BitVec 4) (x : Reg) (imm : Byte) : Word := op ++ (regNibble x ++ imm)

/-- A format XY or XYN word: opcode, f2, f3 and the last nibble (R62). -/
def wordXYN (op : BitVec 4) (x y : Reg) (n : BitVec 4) : Word := op ++ (regNibble x ++ (regNibble y ++ n))

/-- The word of an instruction (R65). -/
def encode : Instr → Word
  | .nop => 0x0000#16
  | .cls => 0x00E0#16
  | .ret => 0x00EE#16
  | .jmp addr => wordA 0x1#4 addr
  | .call addr => wordA 0x2#4 addr
  | .seImm x imm => wordXI 0x3#4 x imm
  | .sneImm x imm => wordXI 0x4#4 x imm
  | .seReg x y => wordXYN 0x5#4 x y 0x0#4
  | .ldImm x imm => wordXI 0x6#4 x imm
  | .addImm x imm => wordXI 0x7#4 x imm
  | .ldReg x y => wordXYN 0x8#4 x y 0x0#4
  | .or x y => wordXYN 0x8#4 x y 0x1#4
  | .and x y => wordXYN 0x8#4 x y 0x2#4
  | .xor x y => wordXYN 0x8#4 x y 0x3#4
  | .addReg x y => wordXYN 0x8#4 x y 0x4#4
  | .sub x y => wordXYN 0x8#4 x y 0x5#4
  | .shr x y => wordXYN 0x8#4 x y 0x6#4
  | .subn x y => wordXYN 0x8#4 x y 0x7#4
  | .shl x y => wordXYN 0x8#4 x y 0xE#4
  | .sneReg x y => wordXYN 0x9#4 x y 0x0#4
  | .ldI addr => wordA 0xA#4 addr
  | .jmpV0 addr => wordA 0xB#4 addr
  | .rnd x imm => wordXI 0xC#4 x imm
  | .draw x y n => wordXYN 0xD#4 x y (regNibble n)
  | .skp x => wordXI 0xE#4 x 0x9E#8
  | .sknp x => wordXI 0xE#4 x 0xA1#8
  | .ldVxDt x => wordXI 0xF#4 x 0x07#8
  | .ldVxKey x => wordXI 0xF#4 x 0x0A#8
  | .ldDtVx x => wordXI 0xF#4 x 0x15#8
  | .ldStVx x => wordXI 0xF#4 x 0x18#8
  | .addI x => wordXI 0xF#4 x 0x1E#8
  | .ldIFont x => wordXI 0xF#4 x 0x29#8
  | .bcd x => wordXI 0xF#4 x 0x33#8
  | .store x => wordXI 0xF#4 x 0x55#8
  | .load x => wordXI 0xF#4 x 0x65#8

/-- The two bytes of an instruction as they lie in memory, high byte first (R60). -/
def encodeBytes (i : Instr) : List Byte := [highByte (encode i), lowByte (encode i)]

end Sys2Proof
end

