-- ==== Sys2Proof/Config.lean ====
section
/-! DEFINITION. The fixed parameters of the block (spec/00_scope.md R1) and the three parameters the source leaves
open (R2), which have no body: nothing in Lean can tell their values. -/

namespace Sys2Proof

/-- MEM_SIZE: bytes of addressable memory (R1, R40). -/
@[simp, reducible] def Config.memSize : Nat := 4096

/-- STACK_DEPTH: call stack entries (R1, R15). -/
@[simp, reducible] def Config.stackDepth : Nat := 16

/-- WIDTH: display columns (R1, R19). -/
@[simp, reducible] def Config.width : Nat := 64

/-- HEIGHT: display rows (R1, R19). -/
@[simp, reducible] def Config.height : Nat := 32

/-- ENTRY: PC at reset (R1, R22). -/
@[simp, reducible] def Config.entry : Word := 0x200

/-- LOAD_BASE: where LOAD copies a program (R1, R182). -/
@[simp, reducible] def Config.loadBase : Nat := 0x200

/-- MAX_PROGRAM: the largest loadable image in bytes (R1, R182). -/
@[simp, reducible] def Config.maxProgram : Nat := 3584

/-- FONT_BYTES: size of the font set, which starts at address 0x000 (R1, R25). -/
@[simp, reducible] def Config.fontBytes : Nat := 80

/-- GLYPH_BYTES: bytes of one glyph (R1, R25). -/
@[simp, reducible] def Config.glyphBytes : Nat := 5

/-- FONT: the 80 bytes of the glyph table, a parameter of the model (R2, R26). DESIGN CHOICE, safe: left without a
value, because the source gives none (notes/assumptions/3). -/
opaque Config.font : Vector Byte 80

/-- `rnd`: the byte the random source supplies to the n-th execution of RND, any byte, under no law (R2, R111).
DESIGN CHOICE: a free value (notes/assumptions/1). -/
opaque Config.randomByte : Nat → Byte

/-- The choice behind KEYPICK when several keys are pressed (R2, R143): any function of the 16 flags. The law
KEY[KEYPICK(KEY)] is imposed where it is used (Machine/Operands.lean, keyPickWith). DESIGN CHOICE, a free value
(notes/assumptions/2). -/
opaque Config.keyChoice : Vector Bool 16 → Reg

end Sys2Proof
end

