-- ==== Sys2Proof/Machine/State.lean ====
section
/-! DEFINITION. The state record (spec/10_state.md R10), the reasons a step can stop, and the reset state (R22). -/

namespace Sys2Proof.Machine

/-- MEM as address and byte pairs in canonical form: addresses strictly rising and below 4096, no entry equal to what
RESET puts there. An unlisted address reads as `initialByte` (Machine/Ops.lean). -/
abbrev Memory := List Host.Cell

/-- DISP: 32 rows from the top; bit x of row y is pixel (x, y), set meaning lit (R19). -/
abbrev Display := Vector (BitVec 64) 32

/-- KEY: the pressed flag of each key code (R20). -/
abbrev Keys := Vector Bool 16

/-- The whole state of the block (R10), and one counter of the model's own (draws). -/
structure State where
  /-- MEM, 4096 cells of 8 bits (R18). -/
  mem : Memory
  /-- V0 to VF (R11). -/
  v : Vector Byte 16
  /-- PC (R13). -/
  pc : Word
  /-- I, the index register (R14). -/
  i : Word
  /-- STACK, 16 return addresses, outside MEM (R15, R52). -/
  stack : Vector Word 16
  /-- SP, the entries in use, 0 to 16 (R15). -/
  sp : Fin 17
  /-- DT, the delay timer (R16). -/
  dt : Byte
  /-- ST, the sound timer (R16). -/
  st : Byte
  /-- BEEP, the beep latch (R17). -/
  beep : Bool
  /-- DISP, 64 x 32 pixels (R19). -/
  disp : Display
  /-- KEY, 16 flags (R20). -/
  key : Keys
  /-- The model's own: how many random bytes RND has drawn so far (notes/assumptions/1). -/
  draws : Nat
  deriving DecidableEq, Repr

/-- The six fault kinds with the information each carries (R150). Each is the result of a host operation that changed
nothing (R152); the spec names every one, so stopping with it is safe. -/
inductive Fault where
  /-- Raised by STEP at decode: the word matches no row of the opcode map (R66). Safe: the spec's own fault. -/
  | unknownOpcode (w : Word)
  /-- Raised by STEP in the fetch, DRAW, BCD, STORE and LOAD: carries the lowest address of the access above 4095
  (R42). Safe: the spec's own fault. -/
  | outOfBoundsAddress (address : Nat)
  /-- Raised by CALL when SP is 16 (R83). Safe: the spec's own fault. -/
  | stackOverflow
  /-- Raised by RET when SP is 0 (R81). Safe: the spec's own fault. -/
  | stackUnderflow
  /-- Raised by SKP, SKNP and SETKEY: carries the offending index (R140, R141, R160). Safe: the spec's own fault. -/
  | invalidKeyIndex (index : Int)
  /-- Raised by the LOAD operation: carries the length of the image (R182). Safe: the spec's own fault. -/
  | programTooLarge (length : Nat)
  deriving DecidableEq, Repr

/-- Why the model gives an instruction no meaning. -/
inductive Refusal where
  /-- Raised by an arm of exec for an instruction without a meaning yet: no arm is such. Safe: it stops. -/
  | notModelled (mnemonic : String)
  deriving DecidableEq, Repr

/-- The state right after RESET (R22): memory as `initialByte` says, so nothing is listed. draws is the model's own
and starts at 0 (DESIGN CHOICE, notes/assumptions/1). -/
def State.reset : State where
  mem := []
  v := Vector.replicate 16 0
  pc := Config.entry
  i := 0
  stack := Vector.replicate 16 0
  sp := 0
  dt := 0
  st := 0
  beep := false
  disp := Vector.replicate 32 0
  key := Vector.replicate 16 false
  draws := 0

end Sys2Proof.Machine
end

