-- ==== Sys2Proof/Machine/Ops.lean ====
section
/-! DEFINITION. The named operations over registers, memory, the stack, the display and the keys, the raising of a
fault, and the fetch (spec/20_memory.md R42 to R45, spec/10_state.md R11 to R20, spec/60_exceptions.md R152). -/

namespace Sys2Proof.Machine

/-- What an operation of the machine answers. -/
abbrev Result := Host.Outcome State Fault Refusal

/-! ## Raising a fault -/

/-- Raise a fault: the operation ends with the fault as its result. Control goes nowhere inside the machine: no
vector, no saved PC, no mode (R153). The answer carries no state, and the state record stays the one from before the
operation (R152). -/
def raise (f : Fault) : Result := .fault f

/-- Go on with a value, or raise the fault that came instead of it. -/
def attempt {α : Type} (r : Except Fault α) (k : α → Result) : Result :=
  match r with
  | .ok a => k a
  | .error f => raise f

/-! ## Registers -/

/-- Read V[r] (R11). -/
def State.reg (s : State) (r : Reg) : Byte := s.v[r]

/-- Write V[r] (R11); no register is hardwired. -/
def State.setReg (s : State) (r : Reg) (x : Byte) : State := { s with v := s.v.set r x }

/-- Write V[0], V[1], ... with the given bytes in order; the registers past them keep their values (R125). -/
def State.loadRegs (s : State) (bytes : List Byte) : State :=
  { s with v := Vector.ofFn fun r => (bytes[r.val]?).getD (s.reg r) }

/-- Write PC. -/
def State.setPc (s : State) (a : Word) : State := { s with pc := a }

/-- Write I. -/
def State.setI (s : State) (a : Word) : State := { s with i := a }

/-- Write DT. -/
def State.setDt (s : State) (x : Byte) : State := { s with dt := x }

/-- Write ST. -/
def State.setSt (s : State) (x : Byte) : State := { s with st := x }

/-- Write BEEP. -/
def State.setBeep (s : State) (b : Bool) : State := { s with beep := b }

/-- Replace the whole of DISP. -/
def State.setDisp (s : State) (d : Display) : State := { s with disp := d }

/-- Replace the whole of MEM. -/
def State.setMem (s : State) (m : Memory) : State := { s with mem := m }

/-- Write KEY[k]. -/
def State.setKey (s : State) (k : Reg) (pressed : Bool) : State := { s with key := s.key.set k pressed }

/-- Write STACK[k]. -/
def State.setStack (s : State) (k : Fin 16) (a : Word) : State := { s with stack := s.stack.set k a }

/-- Write SP. -/
def State.setSp (s : State) (n : Fin 17) : State := { s with sp := n }

/-- Count one random byte as drawn (the model's own; notes/assumptions/1). -/
def State.nextDraw (s : State) : State := { s with draws := s.draws + 1 }

/-- `skip`: move PC past the next sequential instruction (R5, R84). -/
def State.skip (s : State) : State := s.setPc (s.pc + 2)

/-! ## Memory -/

/-- What RESET puts at an address: the font in 0x000 to 0x04F, zero above it (R22, R41). -/
def initialByte (a : Nat) : Byte :=
  if h : a < Config.fontBytes then Config.font[a] else 0

/-- The canonical form of memory: equal memories are equal lists. -/
abbrev Memory.wf (m : Memory) : Prop :=
  m.Pairwise (fun c d => c.1 < d.1) ∧ ∀ c ∈ m, c.1 < Config.memSize ∧ c.2 ≠ initialByte c.1

/-- MEM[a]: the listed byte, or what RESET put there. -/
def Memory.read : Memory → Nat → Byte
  | [], a => initialByte a
  | c :: rest, a => if c.1 = a then c.2 else Memory.read rest a

/-- List a byte at its place in the rising order of addresses. -/
def Memory.place : Memory → Nat → Byte → Memory
  | [], a, x => [(a, x)]
  | c :: rest, a, x => if a < c.1 then (a, x) :: c :: rest else c :: Memory.place rest a x

/-- MEM[a] <- x, keeping the canonical form: the byte RESET put there is not listed. -/
def Memory.write (m : Memory) (a : Nat) (x : Byte) : Memory :=
  let others := m.filter fun c => c.1 != a
  if x = initialByte a then others else Memory.place others a x

/-- The k bytes at a, a+1, ... in that order. -/
def Memory.readBytes (m : Memory) (a k : Nat) : List Byte :=
  (List.range k).map fun j => m.read (a + j)

/-- Store bytes at a, a+1, ... in that order. -/
def Memory.writeBytes (m : Memory) (a : Nat) : List Byte → Memory
  | [] => m
  | x :: rest => Memory.writeBytes (m.write a x) (a + 1) rest

/-- The lowest address above 4095 of an access to k bytes from a, if there is one; addresses are unbounded integers
(R42). -/
def firstOutOfBounds (a k : Nat) : Option Nat :=
  if k = 0 ∨ a + k ≤ Config.memSize then none else some (max a Config.memSize)

/-- MemRead(a, k): the bytes, or OutOfBoundsAddress with no byte read (R42). -/
def memRead (m : Memory) (a k : Nat) : Except Fault (List Byte) :=
  match firstOutOfBounds a k with
  | none => .ok (m.readBytes a k)
  | some e => .error (.outOfBoundsAddress e)

/-- MemWrite(a, k, bytes): the memory after it, or OutOfBoundsAddress with no byte written (R42). -/
def memWrite (m : Memory) (a : Nat) (bytes : List Byte) : Except Fault Memory :=
  match firstOutOfBounds a bytes.length with
  | none => .ok (m.writeBytes a bytes)
  | some e => .error (.outOfBoundsAddress e)

/-! ## Instruction fetch -/

/-- Fetch: the word at PC, big-endian, and the state with PC advanced by 2 (R43); or the fault of the read. -/
def fetch (s : State) : Except Fault (Word × State) :=
  match memRead s.mem s.pc.toNat 2 with
  | .ok bytes => .ok (wordOfBytes (bytes.getD 0 0) (bytes.getD 1 0), s.setPc (s.pc + 2))
  | .error f => .error f

/-- Store a word where the next fetch takes it from, high byte at the lower address; at a PC no fetch can use,
nothing is stored (notes/assumptions/5). -/
def State.placeWord (s : State) (w : Word) : State :=
  if s.pc.toNat + 2 ≤ Config.memSize then
    s.setMem (s.mem.writeBytes s.pc.toNat [highByte w, lowByte w])
  else s

/-! ## The call stack -/

/-- Push: StackOverflow when SP is 16, else STACK[SP] <- a and SP <- SP + 1 (R15). -/
def push (s : State) (a : Word) : Except Fault State :=
  if h : s.sp.val < Config.stackDepth then
    .ok ((s.setStack ⟨s.sp.val, h⟩ a).setSp ⟨s.sp.val + 1, Nat.succ_lt_succ h⟩)
  else .error .stackOverflow

/-- Pop: StackUnderflow when SP is 0, else SP <- SP - 1 and the value is STACK[SP]; the popped entry keeps its value
(R15). -/
def pop (s : State) : Except Fault (Word × State) :=
  match s.sp with
  | ⟨0, _⟩ => .error .stackUnderflow
  | ⟨n + 1, h⟩ => .ok (s.stack[n]'(Nat.lt_of_succ_lt_succ h), s.setSp ⟨n, Nat.lt_of_succ_lt h⟩)

/-! ## The display -/

/-- A pixel: column and row. -/
abbrev Pixel := Fin 64 × Fin 32

/-- DISP[x, y] (R19). -/
def Display.lit (d : Display) (p : Pixel) : Bool := d[p.2].getLsbD p.1

/-- DISP[x, y] <- not DISP[x, y]. -/
def Display.toggle (d : Display) (p : Pixel) : Display := d.set p.2 (d[p.2] ^^^ BitVec.twoPow 64 p.1)

/-- The display with every pixel false (R130). -/
def Display.blank : Display := Vector.replicate 32 0

/-- The pixel with linear index x + 64*y (R19). -/
def pixelAt (index : Fin 2048) : Pixel :=
  (⟨index.val % 64, Nat.mod_lt _ (by decide)⟩, ⟨index.val / 64, Nat.div_lt_of_lt_mul index.isLt⟩)

/-! ## The keys -/

/-- KEY[k] for a key number from a register: InvalidKeyIndex when it is above 15; it is not masked (R140). -/
def keyFlag (s : State) (k : Byte) : Except Fault Bool :=
  if h : k.toNat < 16 then .ok s.key[k.toNat] else .error (.invalidKeyIndex k.toNat)

end Sys2Proof.Machine
end

