-- ==== Sys2Proof/Machine/Operands.lean ====
section
/-! DEFINITION. The operand forms: zero extension, the I-based address, the register range of STORE and LOAD, decimal
digits, sprite pixels and the choice of a key (spec/30_encoding.md R63, spec/42_index_memory.md,
spec/43_display.md R131, spec/44_keypad_timers.md R143). The register operands vx and vy are read by State.reg before
any write (R70). -/

namespace Sys2Proof.Machine

/-- zext_16 of a 12-bit address (R3, R63). -/
def zextAddr (addr : BitVec 12) : Word := addr.setWidth 16

/-- zext_16 of an 8-bit value (R3). -/
def zextByte (x : Byte) : Word := x.setWidth 16

/-- The address an I-based access starts at, an unbounded integer (R42). -/
def State.indexAddress (s : State) : Nat := s.i.toNat

/-- f2 + 1, the number of registers and bytes of STORE and LOAD: f2 is used as a count (R124, R125). -/
def blockLength (x : Reg) : Nat := x.val + 1

/-- V[0], V[1], ..., V[f2] (R124). -/
def State.regsThrough (s : State) (x : Reg) : List Byte := s.v.toList.take (blockLength x)

/-- I <- wrap16(I + f2 + 1) (R124, R125). -/
def State.advanceIndex (s : State) (x : Reg) : State := s.setI (s.i + BitVec.ofNat 16 (blockLength x))

/-- The hundreds, tens and ones digits of a byte (R123). -/
def decimalDigits (x : Byte) : List Byte :=
  [BitVec.ofNat 8 (x.toNat / 100), BitVec.ofNat 8 (x.toNat / 10 % 10), BitVec.ofNat 8 (x.toNat % 10)]

/-- Column col of a sprite row is set: bit 7 of the byte is column 0, the leftmost (R131). -/
def spriteBit (row : Byte) (col : Nat) : Bool := row.getLsbD (7 - col)

/-- The pixel that a sprite at (x, y) covers at column col of row j: both coordinates wrap, computed without an 8-bit
wrap (R131). -/
def spritePixel (x y : Byte) (j col : Nat) : Pixel :=
  (Fin.ofNat 64 (x.toNat + col), Fin.ofNat 32 (y.toNat + j))

/-- The pixels that the set bits of one sprite row toggle, left to right (R131). -/
def rowPixels (x y : Byte) (j : Nat) (row : Byte) : List Pixel :=
  ((List.range 8).filter (spriteBit row)).map (spritePixel x y j)

/-- The pixels that the rows of a sprite toggle, from row j down, in the order of the rule's loops (R131). -/
def spritePixels (x y : Byte) : Nat → List Byte → List Pixel
  | _, [] => []
  | j, row :: rest => rowPixels x y j row ++ spritePixels x y (j + 1) rest

/-- Toggle pixels in order; the flag says whether one of them was set when its turn came (R131). -/
def togglePixels : Display → List Pixel → Display × Bool
  | d, [] => (d, false)
  | d, p :: rest =>
    let after := togglePixels (d.toggle p) rest
    (after.1, d.lit p || after.2)

/-- The pressed keys, lowest first. -/
def pressedKeys (keys : Keys) : List Reg := (List.finRange 16).filter fun k => keys[k]

/-- A pressed key: the only one if there is one, and of several the chosen one if it is pressed, else the lowest. With
no key pressed the value is not used. Every choice gives a pressed key, and every pressed key is given by some choice
(R143). -/
def keyPickWith (choice : Reg) (keys : Keys) : Reg :=
  match pressedKeys keys with
  | [] => 0
  | [k] => k
  | k :: _ :: _ => if keys[choice] then choice else k

/-- KEYPICK: the key that LD Vx,KEY reports (R2, R143; notes/assumptions/2). -/
def keyPick (keys : Keys) : Reg := keyPickWith (Config.keyChoice keys) keys

end Sys2Proof.Machine
end

