-- ==== Sys2Proof/Machine/Flags.lean ====
section
/-! DEFINITION. The values VF receives (spec/10_state.md R12, spec/41_alu.md R106 to R112). -/

namespace Sys2Proof.Machine

/-- A flag value: 1 for true, 0 for false. -/
def flag (b : Bool) : Byte := if b then 1 else 0

/-- Carry out of vx + vy: 1 if the sum exceeds 255 (R106). -/
def carryFlag (x y : Byte) : Byte := flag (decide (x.toNat + y.toNat > 255))

/-- Not-borrow of a - b: 0 if a < b, else 1 (R107, R109). -/
def notBorrowFlag (a b : Byte) : Byte := flag (!decide (a.toNat < b.toNat))

/-- The bit SHR shifts out: vx & 1 (R108). -/
def shiftedOutRight (x : Byte) : Byte := x &&& 1

/-- The bit SHL shifts out: (vx >> 7) & 1 (R110). -/
def shiftedOutLeft (x : Byte) : Byte := (x >>> 7) &&& 1

end Sys2Proof.Machine
end

