-- ==== Sys2Proof/Machine/Alu.lean ====
section
/-! DEFINITION. Register load, arithmetic, logic, shift and random instructions (spec/41_alu.md R100 to R112). vx and
vy are read before any write (R70); writes happen in the order of the rule, so with f2 = F the later one wins (R71). -/

namespace Sys2Proof.Machine

/-- LD Vx,imm (R100). -/
def execLdImm (x : Reg) (imm : Byte) (s : State) : Result := .next (s.setReg x imm)

/-- ADD Vx,imm: VF is not a carry here (R101). -/
def execAddImm (x : Reg) (imm : Byte) (s : State) : Result := .next (s.setReg x (s.reg x + imm))

/-- LD Vx,Vy (R102). -/
def execLdReg (x y : Reg) (s : State) : Result := .next (s.setReg x (s.reg y))

/-- OR Vx,Vy: VF is not written (R103). -/
def execOr (x y : Reg) (s : State) : Result := .next (s.setReg x (s.reg x ||| s.reg y))

/-- AND Vx,Vy: VF is not written (R104). -/
def execAnd (x y : Reg) (s : State) : Result := .next (s.setReg x (s.reg x &&& s.reg y))

/-- XOR Vx,Vy: VF is not written (R105). -/
def execXor (x y : Reg) (s : State) : Result := .next (s.setReg x (s.reg x ^^^ s.reg y))

/-- ADD Vx,Vy: the sum, then VF the carry (R106). -/
def execAddReg (x y : Reg) (s : State) : Result :=
  let vx := s.reg x
  let vy := s.reg y
  .next ((s.setReg x (vx + vy)).setReg .vf (carryFlag vx vy))

/-- SUB Vx,Vy: the difference, then VF the not-borrow (R107). -/
def execSub (x y : Reg) (s : State) : Result :=
  let vx := s.reg x
  let vy := s.reg y
  .next ((s.setReg x (vx - vy)).setReg .vf (notBorrowFlag vx vy))

/-- SHR Vx: VF the bit shifted out, then the result; f3 is ignored (R108). -/
def execShr (x _y : Reg) (s : State) : Result :=
  let vx := s.reg x
  .next ((s.setReg .vf (shiftedOutRight vx)).setReg x (vx >>> 1))

/-- SUBN Vx,Vy: the reverse difference, then VF the not-borrow (R109). -/
def execSubn (x y : Reg) (s : State) : Result :=
  let vx := s.reg x
  let vy := s.reg y
  .next ((s.setReg x (vy - vx)).setReg .vf (notBorrowFlag vy vx))

/-- SHL Vx: VF the bit shifted out, then the result; f3 is ignored (R110). -/
def execShl (x _y : Reg) (s : State) : Result :=
  let vx := s.reg x
  .next ((s.setReg .vf (shiftedOutLeft vx)).setReg x (vx <<< 1))

/-- RND Vx,imm for a given random byte: V[f2] <- rnd & imm (R111). -/
def rndWith (rnd : Byte) (x : Reg) (imm : Byte) (s : State) : State := s.setReg x (rnd &&& imm)

/-- RND Vx,imm: the random byte is the next draw, a free value (R111; notes/assumptions/1). -/
def execRnd (x : Reg) (imm : Byte) (s : State) : Result :=
  .next (rndWith (Config.randomByte s.draws) x imm s).nextDraw

end Sys2Proof.Machine
end

