-- ==== Sys2Proof/Machine/Control.lean ====
section
/-! DEFINITION. Control-flow instructions (spec/40_control.md R80 to R88). On entry PC already holds the address of
the next sequential instruction (R43). -/

namespace Sys2Proof.Machine

/-- NOP (R80). -/
def execNop (s : State) : Result := .next s

/-- RET (R81). -/
def execRet (s : State) : Result := attempt (pop s) fun p => .next (p.2.setPc p.1)

/-- JMP addr (R82). -/
def execJmp (addr : BitVec 12) (s : State) : Result := .next (s.setPc (zextAddr addr))

/-- CALL addr (R83). -/
def execCall (addr : BitVec 12) (s : State) : Result :=
  attempt (push s s.pc) fun t => .next (t.setPc (zextAddr addr))

/-- Skip the next instruction when the condition holds (R84 to R87, R140, R141). -/
def skipIf (condition : Bool) (s : State) : Result := .next (if condition then s.skip else s)

/-- SE Vx,imm (R84). -/
def execSeImm (x : Reg) (imm : Byte) (s : State) : Result := skipIf (s.reg x == imm) s

/-- SNE Vx,imm (R85). -/
def execSneImm (x : Reg) (imm : Byte) (s : State) : Result := skipIf (s.reg x != imm) s

/-- SE Vx,Vy (R86). -/
def execSeReg (x y : Reg) (s : State) : Result := skipIf (s.reg x == s.reg y) s

/-- SNE Vx,Vy (R87). -/
def execSneReg (x y : Reg) (s : State) : Result := skipIf (s.reg x != s.reg y) s

/-- JMP V0+addr: always V0; the sum is not reduced modulo 4096 (R88). -/
def execJmpV0 (addr : BitVec 12) (s : State) : Result :=
  .next (s.setPc (zextByte (s.reg 0) + zextAddr addr))

end Sys2Proof.Machine
end

