-- ==== Sys2Proof/Machine/Draw.lean ====
section
/-! DEFINITION. Display instructions (spec/43_display.md R130, R131). -/

namespace Sys2Proof.Machine

/-- CLS (R130). -/
def execCls (s : State) : Result := .next (s.setDisp Display.blank)

/-- DRAW Vx,Vy,n: XOR the n sprite bytes from I onto the display at (vx, vy), wrapping; VF is the collision flag,
always written (R131). -/
def execDraw (x y : Reg) (n : Fin 16) (s : State) : Result :=
  attempt (memRead s.mem s.indexAddress n.val) fun rows =>
    let drawn := togglePixels s.disp (spritePixels (s.reg x) (s.reg y) 0 rows)
    .next ((s.setDisp drawn.1).setReg .vf (flag drawn.2))

end Sys2Proof.Machine
end

