-- ==== Sys2Proof/Machine/Index.lean ====
section
/-! DEFINITION. Index-register and memory instructions (spec/42_index_memory.md R120 to R125). -/

namespace Sys2Proof.Machine

/-- LD I,addr (R120). -/
def execLdI (addr : BitVec 12) (s : State) : Result := .next (s.setI (zextAddr addr))

/-- ADD I,Vx: wraps at 65536, writes no flag (R121). -/
def execAddI (x : Reg) (s : State) : Result := .next (s.setI (s.i + zextByte (s.reg x)))

/-- LD I,FONT(Vx): the whole 8-bit value times the glyph size, not masked (R122). -/
def execLdIFont (x : Reg) (s : State) : Result :=
  .next (s.setI (zextByte (s.reg x) * BitVec.ofNat 16 Config.glyphBytes))

/-- BCD Vx: three decimal digits at I, I+1, I+2 (R123). -/
def execBcd (x : Reg) (s : State) : Result :=
  attempt (memWrite s.mem s.indexAddress (decimalDigits (s.reg x))) fun m => .next (s.setMem m)

/-- STORE V0..Vx: V0 to V[f2] at I upward, then I past the block (R124). -/
def execStore (x : Reg) (s : State) : Result :=
  attempt (memWrite s.mem s.indexAddress (s.regsThrough x)) fun m => .next ((s.setMem m).advanceIndex x)

/-- LOAD V0..Vx: V0 to V[f2] from I upward, then I past the block (R125). -/
def execLoad (x : Reg) (s : State) : Result :=
  attempt (memRead s.mem s.indexAddress (blockLength x)) fun bytes => .next ((s.loadRegs bytes).advanceIndex x)

end Sys2Proof.Machine
end

