-- ==== Sys2Proof/Machine/Keypad.lean ====
section
/-! DEFINITION. Keypad and timer instructions (spec/44_keypad_timers.md R140 to R145). -/

namespace Sys2Proof.Machine

/-- SKP Vx (R140). -/
def execSkp (x : Reg) (s : State) : Result := attempt (keyFlag s (s.reg x)) fun pressed => skipIf pressed s

/-- SKNP Vx (R141). -/
def execSknp (x : Reg) (s : State) : Result := attempt (keyFlag s (s.reg x)) fun pressed => skipIf (!pressed) s

/-- LD Vx,DT (R142). -/
def execLdVxDt (x : Reg) (s : State) : Result := .next (s.setReg x s.dt)

/-- LD Vx,KEY: with no key pressed PC goes back to this instruction, else V[f2] receives a pressed key's number
(R143). -/
def execLdVxKey (x : Reg) (s : State) : Result :=
  if pressedKeys s.key = [] then .next (s.setPc (s.pc - 2))
  else .next (s.setReg x (BitVec.ofNat 8 (keyPick s.key).val))

/-- LD DT,Vx (R144). -/
def execLdDtVx (x : Reg) (s : State) : Result := .next (s.setDt (s.reg x))

/-- LD ST,Vx: BEEP is not changed (R145). -/
def execLdStVx (x : Reg) (s : State) : Result := .next (s.setSt (s.reg x))

end Sys2Proof.Machine
end

