-- ==== Sys2Proof/Machine/Step.lean ====
section
/-! DEFINITION. The STEP operation: fetch, decode, execute (spec/10_state.md R24), and the placing of a word where the
next step fetches it. -/

namespace Sys2Proof.Machine

/-- STEP: one instruction, or a fault of the first stage that faults (R24, R154). The random byte of RND is the next
draw (notes/assumptions/1). -/
def step (s : State) : Host.Outcome State Fault Refusal :=
  attempt (fetch s) fun fetched =>
    match decode fetched.1 with
    | some i => exec i fetched.2
    | none => raise (.unknownOpcode fetched.1)

/-- The state with an instruction word stored at PC, where the next step fetches it; it stands for the host's LOAD of
a program (notes/assumptions/5). -/
def State.withFetchWord (s : State) (nbits w : Nat) : State :=
  s.placeWord (BitVec.ofNat 16 (w % 2 ^ nbits))

end Sys2Proof.Machine
end

