-- ==== Sys2Proof/Machine/Operations.lean ====
section
/-! DEFINITION. The five host operations and the two outputs (spec/10_state.md R23, spec/60_exceptions.md R152, R158
to R161, spec/70_reset_and_hazards.md R180 to R183). They are the only ways the state changes or is seen; the host may
request any of them at any time. -/

namespace Sys2Proof.Machine

/-- A host operation with its inputs (R23). -/
inductive Operation where
  | reset
  | load (bytes : List Byte)
  | step (rnd : Byte)
  | tick
  | setKey (index : Int) (pressed : Bool)
  deriving DecidableEq, Repr

/-- RESET: the reset state, whatever the state before; the model's own count of random bytes is no part of the record
and goes on (R180; notes/assumptions/1). -/
def resetRecord (s : State) : State := { State.reset with draws := s.draws }

/-- LOAD: the image copied to 0x200 upward, or ProgramTooLarge with nothing written (R182). -/
def loadProgram (bytes : List Byte) (s : State) : Result :=
  if bytes.length + Config.loadBase > Config.memSize then raise (.programTooLarge bytes.length)
  else .next (s.setMem (s.mem.writeBytes Config.loadBase bytes))

/-- STEP with its input rnd: as `step`, with the random byte of RND given (R24, R111). -/
def stepWith (rnd : Byte) (s : State) : Result :=
  attempt (fetch s) fun fetched =>
    match decode fetched.1 with
    | some (.rnd x imm) => .next (rndWith rnd x imm fetched.2)
    | some i => exec i fetched.2
    | none => raise (.unknownOpcode fetched.1)

/-- One timer count: down by one, staying at zero (R158). -/
def countDown (x : Byte) : Byte := if x = 0 then 0 else x - 1

/-- TICK: both timers count down; BEEP says whether ST was above zero before (R158, R159). -/
def tick (s : State) : State :=
  ((s.setDt (countDown s.dt)).setSt (countDown s.st)).setBeep (s.st != 0)

/-- SETKEY: one flag, or InvalidKeyIndex (R160). -/
def setKeyFlag (index : Int) (pressed : Bool) (s : State) : Result :=
  if 0 ≤ index ∧ index ≤ 15 then .next (s.setKey (Fin.ofNat 16 index.toNat) pressed)
  else raise (.invalidKeyIndex index)

/-- The answer of an operation requested on a state (R23). -/
def perform : Operation → State → Result
  | .reset, s => .next (resetRecord s)
  | .load bytes, s => loadProgram bytes s
  | .step rnd, s => stepWith rnd s
  | .tick, s => .next (tick s)
  | .setKey index pressed, s => setKeyFlag index pressed s

/-- The state record after an operation: a faulting operation changes nothing (R152). -/
def recordAfter (op : Operation) (s : State) : State :=
  match perform op s with
  | .next t => t
  | .fault _ => s
  | .refused _ => s

/-- The state record after operations of a host that goes on whatever faults: after a fault it may request any
operation (R155). -/
def recordAfterAll : List Operation → State → State
  | [], s => s
  | op :: rest, s => recordAfterAll rest (recordAfter op s)

/-- A run of operations in the order the host requests them; one that faults ends the run in failure (R155, R187). -/
def performAll : List Operation → State → Result
  | [], s => .next s
  | op :: rest, s =>
    match perform op s with
    | .next t => performAll rest t
    | .fault f => .fault f
    | .refused r => .refused r

/-- The BEEPING output (R159). -/
def beeping (s : State) : Bool := s.beep

/-- The DISPLAY output: 2048 pixels, index x + 64*y (R161, R19). -/
def display (s : State) : Vector Bool 2048 := Vector.ofFn fun index => s.disp.lit (pixelAt index)

end Sys2Proof.Machine
end

