-- ==== Sys2Proof/WellFormed.lean ====
section
/-! DEFINITION. Well-formedness. The fields of Instr are typed by their widths, so an Instr cannot be ill-formed; what
can be is an instruction as numbers (a row of the opcode map with operands, the abstract form of a line of the
assembler syntax R72) or a raw instruction word. Both are checked here against the opcode map
(spec/30_encoding.md R61 to R66). -/

namespace Sys2Proof

/-- An instruction as plain numbers: the number of its row in the opcode map (1 to 35) and its operands in the order
of the row's format. -/
structure RawInstr where
  row : Nat
  operands : List Nat
  deriving DecidableEq, Repr

/-- The row of the opcode map that a raw instruction names, if there is one (R65). -/
def RawInstr.opcodeRow (r : RawInstr) : Option OpcodeRow :=
  if r.row = 0 then none else opcodeMap[r.row - 1]?

/-- Check 1: the row exists. -/
def RawInstr.rowExists (r : RawInstr) : Bool := r.opcodeRow.isSome

/-- Check 2: one operand per field of the row's format (R62). -/
def RawInstr.operandCountRight (r : RawInstr) : Bool :=
  match r.opcodeRow with
  | none => false
  | some o => r.operands.length == o.format.fields.length

/-- Check 3: every operand lies in the range of its field: registers and n 0 to 15, imm 0 to 255, addr 0 to 4095
(R61, R63). -/
def RawInstr.operandsFit (r : RawInstr) : Bool :=
  match r.opcodeRow with
  | none => false
  | some o => (r.operands.zip o.format.fields).all fun p => decide (p.1 < 2 ^ p.2.width)

/-- A raw instruction is well-formed when all three checks pass. -/
def RawInstr.wellFormed (r : RawInstr) : Bool :=
  r.rowExists && r.operandCountRight && r.operandsFit

/-- The word of a raw instruction, read off the opcode map alone: the row's match value with each operand put at its
field's place (R61, R65). -/
def RawInstr.word (r : RawInstr) : Option Word :=
  r.opcodeRow.map fun o =>
    (r.operands.zip o.format.fields).foldl (fun w p => w ||| (BitVec.ofNat 16 p.1 <<< p.2.lo)) o.value

/-- Each instruction as its row number and operands. -/
def Instr.raw : Instr → RawInstr
  | .nop => ⟨1, []⟩
  | .cls => ⟨2, []⟩
  | .ret => ⟨3, []⟩
  | .jmp addr => ⟨4, [addr.toNat]⟩
  | .call addr => ⟨5, [addr.toNat]⟩
  | .seImm x imm => ⟨6, [x.val, imm.toNat]⟩
  | .sneImm x imm => ⟨7, [x.val, imm.toNat]⟩
  | .seReg x y => ⟨8, [x.val, y.val]⟩
  | .ldImm x imm => ⟨9, [x.val, imm.toNat]⟩
  | .addImm x imm => ⟨10, [x.val, imm.toNat]⟩
  | .ldReg x y => ⟨11, [x.val, y.val]⟩
  | .or x y => ⟨12, [x.val, y.val]⟩
  | .and x y => ⟨13, [x.val, y.val]⟩
  | .xor x y => ⟨14, [x.val, y.val]⟩
  | .addReg x y => ⟨15, [x.val, y.val]⟩
  | .sub x y => ⟨16, [x.val, y.val]⟩
  | .shr x y => ⟨17, [x.val, y.val]⟩
  | .subn x y => ⟨18, [x.val, y.val]⟩
  | .shl x y => ⟨19, [x.val, y.val]⟩
  | .sneReg x y => ⟨20, [x.val, y.val]⟩
  | .ldI addr => ⟨21, [addr.toNat]⟩
  | .jmpV0 addr => ⟨22, [addr.toNat]⟩
  | .rnd x imm => ⟨23, [x.val, imm.toNat]⟩
  | .draw x y n => ⟨24, [x.val, y.val, n.val]⟩
  | .skp x => ⟨25, [x.val]⟩
  | .sknp x => ⟨26, [x.val]⟩
  | .ldVxDt x => ⟨27, [x.val]⟩
  | .ldVxKey x => ⟨28, [x.val]⟩
  | .ldDtVx x => ⟨29, [x.val]⟩
  | .ldStVx x => ⟨30, [x.val]⟩
  | .addI x => ⟨31, [x.val]⟩
  | .ldIFont x => ⟨32, [x.val]⟩
  | .bcd x => ⟨33, [x.val]⟩
  | .store x => ⟨34, [x.val]⟩
  | .load x => ⟨35, [x.val]⟩

/-- An instruction is well-formed when its raw form is. The field types make this hold of every Instr. -/
def Instr.wellFormed (i : Instr) : Bool := i.raw.wellFormed

/-- A word is an instruction word when some row of the opcode map selects it; every other word is an unknown opcode
(R64, R66). -/
def wordWellFormed (w : Word) : Bool := opcodeMap.any (·.selects w)

end Sys2Proof
end

