-- ==== Sys2Proof/Safety.lean ====
section
/-! DEFINITION. The terms claims are stated in: what an instruction writes, where it stores, when it faults, what no run
can break, and what a finished program is. Nothing of the machine reads this file. -/

namespace Sys2Proof.Machine

/-! ## Frames -/

/-- The components of the state record (spec/10_state.md R10), and the model's own counter. -/
inductive Component where
  | mem | v | pc | i | stack | sp | dt | st | beep | disp | key | draws
  deriving DecidableEq, Repr

/-- A component is the same in two states; memory and registers are compared through their reads, for every address
and every register. -/
def Component.same : Component → State → State → Prop
  | .mem, s, t => ∀ a, t.mem.read a = s.mem.read a
  | .v, s, t => ∀ r, t.reg r = s.reg r
  | .pc, s, t => t.pc = s.pc
  | .i, s, t => t.i = s.i
  | .stack, s, t => t.stack = s.stack
  | .sp, s, t => t.sp = s.sp
  | .dt, s, t => t.dt = s.dt
  | .st, s, t => t.st = s.st
  | .beep, s, t => t.beep = s.beep
  | .disp, s, t => t.disp = s.disp
  | .key, s, t => t.key = s.key
  | .draws, s, t => t.draws = s.draws

/-- Every component but the listed ones is the same. -/
def UnchangedExcept (written : List Component) (s t : State) : Prop :=
  ∀ c, c ∉ written → c.same s t

/-- The components an instruction may write when it executes, the fetch's own advance of PC aside: the Written by
column of R10. -/
def writes : Instr → List Component
  | .nop => []
  | .cls => [.disp]
  | .ret => [.pc, .sp]
  | .jmp _ => [.pc]
  | .call _ => [.pc, .stack, .sp]
  | .seImm _ _ => [.pc]
  | .sneImm _ _ => [.pc]
  | .seReg _ _ => [.pc]
  | .ldImm _ _ => [.v]
  | .addImm _ _ => [.v]
  | .ldReg _ _ => [.v]
  | .or _ _ => [.v]
  | .and _ _ => [.v]
  | .xor _ _ => [.v]
  | .addReg _ _ => [.v]
  | .sub _ _ => [.v]
  | .shr _ _ => [.v]
  | .subn _ _ => [.v]
  | .shl _ _ => [.v]
  | .sneReg _ _ => [.pc]
  | .ldI _ => [.i]
  | .jmpV0 _ => [.pc]
  | .rnd _ _ => [.v, .draws]
  | .draw _ _ _ => [.v, .disp]
  | .skp _ => [.pc]
  | .sknp _ => [.pc]
  | .ldVxDt _ => [.v]
  | .ldVxKey _ => [.v, .pc]
  | .ldDtVx _ => [.dt]
  | .ldStVx _ => [.st]
  | .addI _ => [.i]
  | .ldIFont _ => [.i]
  | .bcd _ => [.mem]
  | .store _ => [.mem, .i]
  | .load _ => [.v, .i]

/-- The instruction may write this V register: its destination f2, VF for the six instructions of R12, and V0 to
V[f2] for LOAD (R11, R12). -/
def mayWriteReg : Instr → Reg → Bool
  | .nop, _ => false
  | .cls, _ => false
  | .ret, _ => false
  | .jmp _, _ => false
  | .call _, _ => false
  | .seImm _ _, _ => false
  | .sneImm _ _, _ => false
  | .seReg _ _, _ => false
  | .ldImm x _, r => r == x
  | .addImm x _, r => r == x
  | .ldReg x _, r => r == x
  | .or x _, r => r == x
  | .and x _, r => r == x
  | .xor x _, r => r == x
  | .addReg x _, r => r == x || r == 15
  | .sub x _, r => r == x || r == 15
  | .shr x _, r => r == x || r == 15
  | .subn x _, r => r == x || r == 15
  | .shl x _, r => r == x || r == 15
  | .sneReg _ _, _ => false
  | .ldI _, _ => false
  | .jmpV0 _, _ => false
  | .rnd x _, r => r == x
  | .draw _ _ _, r => r == 15
  | .skp _, _ => false
  | .sknp _, _ => false
  | .ldVxDt x, r => r == x
  | .ldVxKey x, r => r == x
  | .ldDtVx _, _ => false
  | .ldStVx _, _ => false
  | .addI _, _ => false
  | .ldIFont _, _ => false
  | .bcd _, _ => false
  | .store _, _ => false
  | .load x, r => decide (r ≤ x)

/-- The instruction stores to this address: BCD to I, I+1, I+2 and STORE to I up to I + f2; no other instruction
stores (spec/20_memory.md R44). -/
def storesTo : Instr → State → Nat → Prop
  | .bcd _, s, a => s.indexAddress ≤ a ∧ a < s.indexAddress + 3
  | .store x, s, a => s.indexAddress ≤ a ∧ a < s.indexAddress + blockLength x
  | _, _, _ => False

/-! ## Faults -/

/-- The fault an access to k bytes from a raises, if any (R42, R151): at the lowest address above 4095. -/
def accessFault (a k : Nat) : Option Fault :=
  if 0 < k ∧ 4095 < a + k - 1 then some (.outOfBoundsAddress (if 4095 < a then a else 4096)) else none

/-- The fault an instruction raises in execution, if any (spec/60_exceptions.md R151). -/
def execFault : Instr → State → Option Fault
  | .call _, s => if s.sp.val = 16 then some .stackOverflow else none
  | .ret, s => if s.sp.val = 0 then some .stackUnderflow else none
  | .draw _ _ n, s => accessFault s.indexAddress n.val
  | .bcd _, s => accessFault s.indexAddress 3
  | .store x, s => accessFault s.indexAddress (x.val + 1)
  | .load x, s => accessFault s.indexAddress (x.val + 1)
  | .skp x, s => if 16 ≤ (s.reg x).toNat then some (.invalidKeyIndex (s.reg x).toNat) else none
  | .sknp x, s => if 16 ≤ (s.reg x).toNat then some (.invalidKeyIndex (s.reg x).toNat) else none
  | _, _ => none

/-- The word at PC, high byte first (R43). -/
def wordAtPc (s : State) : Word := wordOfBytes (s.mem.read s.pc.toNat) (s.mem.read (s.pc.toNat + 1))

/-- The state execution starts from: PC moved past the instruction (R43). -/
def fetched (s : State) : State := s.setPc (s.pc + 2)

/-- The fault a STEP raises, if any: of the first stage that faults, fetch, decode, execute (R154). -/
def stepFault (s : State) : Option Fault :=
  if 4095 ≤ s.pc.toNat then some (.outOfBoundsAddress (if 4095 < s.pc.toNat then s.pc.toNat else 4096))
  else
    match decode (wordAtPc s) with
    | none => some (.unknownOpcode (wordAtPc s))
    | some i => execFault i (fetched s)

/-- The operations that can make a state whose STEP faults one whose STEP does not (R155). -/
def Operation.canEndFault : Operation → Bool
  | .reset => true
  | .load _ => true
  | .step _ => false
  | .tick => false
  | .setKey _ _ => false

/-! ## Encodings -/

/-- The instruction's word has the fixed bits of its rule: `(w & M) = K` (R64). -/
def EncodedAs (i : Instr) (mask value : Word) : Prop := encode i &&& mask = value

/-! ## Sprites -/

/-- A set bit of the sprite that DRAW Vx,Vy,n takes from I falls on this pixel (spec/43_display.md R131). -/
def SpriteCovers (s : State) (x y : Reg) (n : Fin 16) (p : Pixel) : Prop :=
  ∃ row col, row < n.val ∧ col < 8 ∧ (s.mem.read (s.indexAddress + row)).getLsbD (7 - col) = true ∧
    p.1.val = ((s.reg x).toNat + col) % 64 ∧ p.2.val = ((s.reg y).toNat + row) % 32

/-! ## Runs -/

/-- What no operation breaks: memory keeps its canonical form, PC stays at most 0x10FE (R13), and every return
address in use lies between 2 and 4096 (R81, R83). -/
structure Invariant (s : State) : Prop where
  memory : s.mem.wf
  pcBound : s.pc.toNat ≤ 0x10FE
  returnAddresses : ∀ k : Fin 16, k.val < s.sp.val → 2 ≤ (s.stack[k]).toNat ∧ (s.stack[k]).toNat ≤ 4096

/-- k STEPs in a row, with no other operation between them; the first fault ends the run. -/
def stepTimes : Nat → State → Result
  | 0, s => .next s
  | k + 1, s =>
    match step s with
    | .next t => stepTimes k t
    | .fault f => .fault f
    | .refused r => .refused r

/-- A state that some sequence of host operations reaches from reset without a fault (R155, R183). -/
inductive Reachable : State → Prop where
  | reset : Reachable State.reset
  | operation (op : Operation) (s t : State) : Reachable s → perform op s = .next t → Reachable t

/-- The convention for a finished program: PC holds the address of a JMP to that same address
(spec/70_reset_and_hazards.md R184). -/
def Finished (s : State) : Prop :=
  s.pc.toNat ≤ 4094 ∧ ∃ addr, decode (wordAtPc s) = some (.jmp addr) ∧ addr.toNat = s.pc.toNat

end Sys2Proof.Machine
end

