-- ==== Sys2Proof/Certificates/Slice0/Obligations.lean ====
section
/-! DEFINITION. The statements for the provers. In a statement about exec, s is the state execution starts from: its PC
already holds the address of the next sequential instruction (spec/20_memory.md R43). -/

open Sys2Proof Sys2Proof.Machine

/-! ## Encoding -/

/-- Sanity: ten words written out from the opcode map decode to the instructions they stand for, and two words that no
row has do not decode (R65, R66). -/
def Obligations.OpcodeMapWordsDecode : Prop :=
  decode 0x0000 = some .nop ∧ decode 0x00EE = some .ret ∧ decode 0x1ABC = some (.jmp 0xABC) ∧
  decode 0x332A = some (.seImm 3 0x2A) ∧ decode 0x8127 = some (.subn 1 2) ∧ decode 0xB300 = some (.jmpV0 0x300) ∧
  decode 0xD5A7 = some (.draw 5 10 7) ∧ decode 0xE2A1 = some (.sknp 2) ∧ decode 0xF429 = some (.ldIFont 4) ∧
  decode 0xFF65 = some (.load 15) ∧ decode 0x8128 = none ∧ decode 0x00E1 = none

/-- Decoding and encoding are inverse: a word decodes to an instruction exactly when it is that instruction's word, for
every word and every operand (R61, R65). -/
def Obligations.DecodeIsTheInverseOfEncode : Prop :=
  ∀ (w : Word) (i : Instr), decode w = some i ↔ encode i = w

/-- Every instruction is its row of the opcode map with its operands put at the places of their fields, and its
operands are in range (R61, R62, R65). -/
def Obligations.EncodeIsTheRowWithItsOperands : Prop :=
  ∀ i : Instr, i.wellFormed = true ∧ i.raw.word = some (encode i)

/-- Decode selects by mask and match; no word matches two rows; a step on a word that matches no row raises
UnknownOpcode with the word (R64). -/
def Obligations.DecodeSelectsTheOneMatchingRow : Prop :=
  (∀ w : Word, (decode w).isSome = wordWellFormed w) ∧
  (∀ (w : Word) (i : Instr) (r : OpcodeRow),
    decode w = some i → r ∈ opcodeMap → (r.selects w = true ↔ i.raw.opcodeRow = some r)) ∧
  (∀ (w : Word) (q r : OpcodeRow),
    q ∈ opcodeMap → r ∈ opcodeMap → q.selects w = true → r.selects w = true → q = r) ∧
  (∀ s : State, s.pc.toNat ≤ 4094 → wordWellFormed (wordAtPc s) = false →
    step s = .fault (.unknownOpcode (wordAtPc s)))

/-- The words that are no instruction, by primary opcode, as the table of R66 lists them. -/
def Obligations.UnknownWordsAreTheListedOnes : Prop :=
  ∀ w : Word, decode w = none ↔
    (f1 w = 0x0 ∧ w ≠ 0x0000 ∧ w ≠ 0x00E0 ∧ w ≠ 0x00EE) ∨
    (f1 w = 0x5 ∧ f4 w ≠ 0x0) ∨
    (f1 w = 0x8 ∧ (f4 w = 0x8 ∨ f4 w = 0x9 ∨ f4 w = 0xA ∨ f4 w = 0xB ∨ f4 w = 0xC ∨ f4 w = 0xD ∨ f4 w = 0xF)) ∨
    (f1 w = 0x9 ∧ f4 w ≠ 0x0) ∨
    (f1 w = 0xE ∧ immField w ≠ 0x9E ∧ immField w ≠ 0xA1) ∨
    (f1 w = 0xF ∧ immField w ≠ 0x07 ∧ immField w ≠ 0x0A ∧ immField w ≠ 0x15 ∧ immField w ≠ 0x18 ∧
      immField w ≠ 0x1E ∧ immField w ≠ 0x29 ∧ immField w ≠ 0x33 ∧ immField w ≠ 0x55 ∧ immField w ≠ 0x65)

/-! ## Fetch and STEP -/

/-- Fetch reads the two bytes at PC, high byte first, and advances PC by 2; it succeeds exactly when PC is at most
4094, and else reports 4096 at PC = 4095 and PC itself above (R43). -/
def Obligations.FetchReadsTheBigEndianWordAtPc : Prop :=
  ∀ s : State,
    (s.pc.toNat ≤ 4094 →
      fetch s = .ok (s.mem.read s.pc.toNat ++ s.mem.read (s.pc.toNat + 1), { s with pc := s.pc + 2 })) ∧
    (s.pc.toNat = 4095 → fetch s = .error (.outOfBoundsAddress 4096)) ∧
    (4096 ≤ s.pc.toNat → fetch s = .error (.outOfBoundsAddress s.pc.toNat))

/-- A step runs the decoded instruction: with an instruction at PC, step is exec of it on the state with PC advanced
past it (R24). -/
def Obligations.StepRunsTheDecodedInstruction : Prop :=
  ∀ (s : State) (i : Instr), s.pc.toNat ≤ 4094 →
    decode (wordOfBytes (s.mem.read s.pc.toNat) (s.mem.read (s.pc.toNat + 1))) = some i →
    step s = exec i { s with pc := s.pc + 2 }

/-- A step faults exactly with the fault of its first faulting stage, fetch, decode, execute, with the conditions and
the information of the fault table, and it never refuses (R150, R151, R154). -/
def Obligations.StepFaultsExactlyByStage : Prop :=
  (∀ (s : State) (f : Fault), step s = .fault f ↔ stepFault s = some f) ∧
  (∀ (s : State) (r : Refusal), step s ≠ .refused r)

/-- An instruction faults in execution exactly under the conditions of the fault table; every other instruction
completes (R151). -/
def Obligations.ExecFaultsExactlyByTheTable : Prop :=
  ∀ (i : Instr) (s : State),
    (∀ f, exec i s = .fault f ↔ execFault i s = some f) ∧ (execFault i s = none → ∃ t, exec i s = .next t)

/-! ## Reset -/

/-- What reset leaves in every component, and in every byte of memory (R22, R180); BEEP, KEY and the memory outside the
font are the spec's decision D6, and the model's own counter is not part of it. -/
def Obligations.ResetLeavesTheStatedValues : Prop :=
  State.reset.pc = 0x200 ∧ (∀ r, State.reset.reg r = 0) ∧ State.reset.i = 0 ∧ State.reset.sp = 0 ∧
  (∀ k : Fin 16, State.reset.stack[k] = 0) ∧ State.reset.dt = 0 ∧ State.reset.st = 0 ∧ State.reset.beep = false ∧
  (∀ p, State.reset.disp.lit p = false) ∧ (∀ k : Fin 16, State.reset.key[k] = false) ∧
  (∀ k : Fin 80, State.reset.mem.read k.val = Config.font[k]) ∧
  (∀ a, 80 ≤ a → a < 4096 → State.reset.mem.read a = 0)

/-- The RESET operation puts every component of the record into the reset state from any state, and cannot fault; the
model's own counter goes on (R180; the last clause is notes/assumptions/1). -/
def Obligations.ResetOperationForgetsTheState : Prop :=
  ∀ s : State, ∃ t, perform .reset s = .next t ∧ UnchangedExcept [.draws] State.reset t ∧ t.draws = s.draws

/-- Without a program every step from reset is a NOP up to address 4094, and the next fetch faults at 4096 (R181). -/
def Obligations.StepsFromResetAreNopsUntilTheEnd : Prop :=
  (∀ k, k ≤ 1792 → stepTimes k State.reset = .next { State.reset with pc := BitVec.ofNat 16 (0x200 + 2 * k) }) ∧
  stepTimes 1793 State.reset = .fault (.outOfBoundsAddress 4096)

/-! ## Control flow -/

/-- NOP changes nothing beyond the fetch (R80). -/
def Obligations.NopChangesNothing : Prop :=
  encode .nop = 0x0000 ∧ ∀ s : State, exec .nop s = .next s

/-- RET pops the return address into PC; on an empty stack it is StackUnderflow (R81). That the popped entry keeps its
value is the spec's decision D5 (R15). -/
def Obligations.RetPopsThePc : Prop :=
  encode .ret = 0x00EE ∧
  (∀ (s : State) (n : Nat) (hn : n < 16), s.sp.val = n + 1 →
    ∃ t, exec .ret s = .next t ∧ t.pc = s.stack[n] ∧ t.sp.val = n ∧ UnchangedExcept [.pc, .sp] s t) ∧
  (∀ s : State, s.sp.val = 0 → exec .ret s = .fault .stackUnderflow)

/-- JMP writes the 12-bit address to PC (R82). -/
def Obligations.JmpGoesToTheAddress : Prop :=
  ∀ (addr : BitVec 12) (s : State), EncodedAs (.jmp addr) 0xF000 0x1000 ∧
    ∃ t, exec (.jmp addr) s = .next t ∧ t.pc.toNat = addr.toNat ∧ UnchangedExcept [.pc] s t

/-- CALL pushes the address of the next instruction and jumps; with 16 entries in use it is StackOverflow (R83). -/
def Obligations.CallPushesTheReturnAddress : Prop :=
  ∀ (addr : BitVec 12) (s : State), EncodedAs (.call addr) 0xF000 0x2000 ∧
    (s.sp.val < 16 → ∃ t, exec (.call addr) s = .next t ∧ t.pc.toNat = addr.toNat ∧ t.sp.val = s.sp.val + 1 ∧
      (∀ k : Fin 16, t.stack[k] = if k.val = s.sp.val then s.pc else s.stack[k]) ∧
      UnchangedExcept [.pc, .stack, .sp] s t) ∧
    (s.sp.val = 16 → exec (.call addr) s = .fault .stackOverflow)

/-- The round trip: CALL from P, then RET, gives PC = P + 2 and the old SP, whatever PC and data did in between
(spec/95_test_vectors.md S7, R81, R83). -/
def Obligations.CallThenRetReturnsAfterTheCall : Prop :=
  ∀ (addr : BitVec 12) (s : State), s.sp.val < 16 →
    ∃ t, exec (.call addr) (fetched s) = .next t ∧
      ∀ u : State, u.sp = t.sp → u.stack = t.stack →
        ∃ v, exec .ret u = .next v ∧ v.pc = s.pc + 2 ∧ v.sp = s.sp

/-- SE Vx,imm and SNE Vx,imm skip one instruction exactly when the register equals, or differs from, the immediate
(R84, R85). -/
def Obligations.ImmediateSkips : Prop :=
  ∀ (x : Reg) (imm : Byte) (s : State),
    EncodedAs (.seImm x imm) 0xF000 0x3000 ∧ EncodedAs (.sneImm x imm) 0xF000 0x4000 ∧
    (∃ t, exec (.seImm x imm) s = .next t ∧ t.pc = (if s.reg x = imm then s.pc + 2 else s.pc) ∧
      UnchangedExcept [.pc] s t) ∧
    (∃ t, exec (.sneImm x imm) s = .next t ∧ t.pc = (if s.reg x = imm then s.pc else s.pc + 2) ∧
      UnchangedExcept [.pc] s t)

/-- SE Vx,Vy and SNE Vx,Vy skip one instruction exactly when the registers are equal, or differ (R86, R87). -/
def Obligations.RegisterSkips : Prop :=
  ∀ (x y : Reg) (s : State),
    EncodedAs (.seReg x y) 0xF00F 0x5000 ∧ EncodedAs (.sneReg x y) 0xF00F 0x9000 ∧
    (∃ t, exec (.seReg x y) s = .next t ∧ t.pc = (if s.reg x = s.reg y then s.pc + 2 else s.pc) ∧
      UnchangedExcept [.pc] s t) ∧
    (∃ t, exec (.sneReg x y) s = .next t ∧ t.pc = (if s.reg x = s.reg y then s.pc else s.pc + 2) ∧
      UnchangedExcept [.pc] s t)

/-- JMP V0+addr goes to the sum of V0 and the address, not reduced modulo 4096 (R88). -/
def Obligations.JmpV0AddsRegisterZero : Prop :=
  ∀ (addr : BitVec 12) (s : State), EncodedAs (.jmpV0 addr) 0xF000 0xB000 ∧
    ∃ t, exec (.jmpV0 addr) s = .next t ∧ t.pc.toNat = (s.reg 0).toNat + addr.toNat ∧ UnchangedExcept [.pc] s t

/-- A finished program stays finished: with PC at a JMP to itself, a step leaves the whole state as it was (R184). -/
def Obligations.FinishedIsAFixedPoint : Prop :=
  ∀ s : State, Finished s → step s = .next s

/-! ## Registers, arithmetic, logic, shifts, random -/

/-- LD Vx,imm and LD Vx,Vy set exactly their destination register (R100, R102). -/
def Obligations.RegisterLoadsSetExactlyTheDestination : Prop :=
  ∀ (x y : Reg) (imm : Byte) (s : State),
    EncodedAs (.ldImm x imm) 0xF000 0x6000 ∧ EncodedAs (.ldReg x y) 0xF00F 0x8000 ∧
    (∃ t, exec (.ldImm x imm) s = .next t ∧ (∀ r, t.reg r = if r = x then imm else s.reg r) ∧
      UnchangedExcept [.v] s t) ∧
    (∃ t, exec (.ldReg x y) s = .next t ∧ (∀ r, t.reg r = if r = x then s.reg y else s.reg r) ∧
      UnchangedExcept [.v] s t)

/-- ADD Vx,imm adds modulo 256 and writes no flag (R101). -/
def Obligations.AddImmWrapsWithoutAFlag : Prop :=
  ∀ (x : Reg) (imm : Byte) (s : State), EncodedAs (.addImm x imm) 0xF000 0x7000 ∧
    ∃ t, exec (.addImm x imm) s = .next t ∧
      (t.reg x).toNat = ((s.reg x).toNat + imm.toNat) % 256 ∧
      (∀ r, r ≠ x → t.reg r = s.reg r) ∧ UnchangedExcept [.v] s t

/-- OR, AND and XOR combine the two registers bit by bit and write no flag (R103, R104, R105). -/
def Obligations.LogicInstructionsLeaveVf : Prop :=
  ∀ (x y : Reg) (s : State),
    EncodedAs (.or x y) 0xF00F 0x8001 ∧ EncodedAs (.and x y) 0xF00F 0x8002 ∧ EncodedAs (.xor x y) 0xF00F 0x8003 ∧
    (∃ t, exec (.or x y) s = .next t ∧ (∀ k, (t.reg x).getLsbD k = ((s.reg x).getLsbD k || (s.reg y).getLsbD k)) ∧
      (∀ r, r ≠ x → t.reg r = s.reg r) ∧ UnchangedExcept [.v] s t) ∧
    (∃ t, exec (.and x y) s = .next t ∧ (∀ k, (t.reg x).getLsbD k = ((s.reg x).getLsbD k && (s.reg y).getLsbD k)) ∧
      (∀ r, r ≠ x → t.reg r = s.reg r) ∧ UnchangedExcept [.v] s t) ∧
    (∃ t, exec (.xor x y) s = .next t ∧ (∀ k, (t.reg x).getLsbD k = ((s.reg x).getLsbD k ^^ (s.reg y).getLsbD k)) ∧
      (∀ r, r ≠ x → t.reg r = s.reg r) ∧ UnchangedExcept [.v] s t)

/-- ADD Vx,Vy: the sum modulo 256, VF the carry, and VF the carry too when it is the destination (R106). -/
def Obligations.AddRegSetsTheCarry : Prop :=
  ∀ (x y : Reg) (s : State), EncodedAs (.addReg x y) 0xF00F 0x8004 ∧
    ∃ t, exec (.addReg x y) s = .next t ∧
      t.reg 15 = (if (s.reg x).toNat + (s.reg y).toNat > 255 then 1 else 0) ∧
      (x ≠ 15 → (t.reg x).toNat = ((s.reg x).toNat + (s.reg y).toNat) % 256) ∧
      (∀ r, r ≠ x → r ≠ 15 → t.reg r = s.reg r) ∧ UnchangedExcept [.v] s t

/-- SUB Vx,Vy and SUBN Vx,Vy: the difference modulo 256, one way and the other; VF is 0 exactly on a borrow, also when
VF is the destination (R107, R109). -/
def Obligations.SubtractionsSetTheNotBorrow : Prop :=
  ∀ (x y : Reg) (s : State), EncodedAs (.sub x y) 0xF00F 0x8005 ∧ EncodedAs (.subn x y) 0xF00F 0x8007 ∧
    (∃ t, exec (.sub x y) s = .next t ∧
      t.reg 15 = (if (s.reg x).toNat < (s.reg y).toNat then 0 else 1) ∧
      (x ≠ 15 → ((t.reg x).toNat : Int) = ((s.reg x).toNat - (s.reg y).toNat : Int) % 256) ∧
      (∀ r, r ≠ x → r ≠ 15 → t.reg r = s.reg r) ∧ UnchangedExcept [.v] s t) ∧
    (∃ t, exec (.subn x y) s = .next t ∧
      t.reg 15 = (if (s.reg y).toNat < (s.reg x).toNat then 0 else 1) ∧
      (x ≠ 15 → ((t.reg x).toNat : Int) = ((s.reg y).toNat - (s.reg x).toNat : Int) % 256) ∧
      (∀ r, r ≠ x → r ≠ 15 → t.reg r = s.reg r) ∧ UnchangedExcept [.v] s t)

/-- SHR Vx and SHL Vx: half the register, and twice it modulo 256, VF the bit shifted out; as the destination VF ends as
the shifted value; f3 is ignored (R108, R110). -/
def Obligations.ShiftsMoveVxByOne : Prop :=
  ∀ (x y : Reg) (s : State), EncodedAs (.shr x y) 0xF00F 0x8006 ∧ EncodedAs (.shl x y) 0xF00F 0x800E ∧
    (∃ t, exec (.shr x y) s = .next t ∧
      (t.reg x).toNat = (s.reg x).toNat / 2 ∧
      (x ≠ 15 → (t.reg 15).toNat = (s.reg x).toNat % 2) ∧
      (∀ r, r ≠ x → r ≠ 15 → t.reg r = s.reg r) ∧ UnchangedExcept [.v] s t) ∧
    (∃ t, exec (.shl x y) s = .next t ∧
      (t.reg x).toNat = (2 * (s.reg x).toNat) % 256 ∧
      (x ≠ 15 → (t.reg 15).toNat = (s.reg x).toNat / 128) ∧
      (∀ r, r ≠ x → r ≠ 15 → t.reg r = s.reg r) ∧ UnchangedExcept [.v] s t)

/-- RND as the spec's STEP(rnd) runs it: for every byte rnd, V[f2] receives rnd & imm, PC moves on by 2 and nothing
else changes (R111). -/
def Obligations.RndMasksTheStepInput : Prop :=
  ∀ (x : Reg) (imm rnd : Byte) (s : State), EncodedAs (.rnd x imm) 0xF000 0xC000 ∧
    (s.pc.toNat ≤ 4094 → decode (wordAtPc s) = some (.rnd x imm) →
      ∃ t, perform (.step rnd) s = .next t ∧ (∀ r, t.reg r = if r = x then rnd &&& imm else s.reg r) ∧
        t.pc = s.pc + 2 ∧ UnchangedExcept [.v, .pc] s t)

/-- RND in exec takes its byte from the model's next draw, a free value, and counts it (the model's choice,
notes/assumptions/1); bits outside imm are 0 (R111). -/
def Obligations.RndTakesTheNextDraw : Prop :=
  ∀ (x : Reg) (imm : Byte) (s : State),
    ∃ t, exec (.rnd x imm) s = .next t ∧
      (∀ r, t.reg r = if r = x then Config.randomByte s.draws &&& imm else s.reg r) ∧
      (∀ k, imm.getLsbD k = false → (t.reg x).getLsbD k = false) ∧
      t.draws = s.draws + 1 ∧ UnchangedExcept [.v, .draws] s t

/-- The model's step is the spec's STEP(rnd) with the next draw as rnd (the model's choice, notes/assumptions/1), and a
step that does not run RND ignores rnd (R111). -/
def Obligations.StepIsStepWithTheNextDraw : Prop :=
  (∀ s t : State, step s = .next t →
    ∃ u, perform (.step (Config.randomByte s.draws)) s = .next u ∧ t = { u with draws := t.draws }) ∧
  (∀ (s : State) (f : Fault) (rnd : Byte), step s = .fault f ↔ perform (.step rnd) s = .fault f) ∧
  (∀ (s : State) (rnd : Byte), (∀ x imm, decode (wordAtPc s) ≠ some (.rnd x imm)) → perform (.step rnd) s = step s)

/-- The write order of the instructions that write both V[f2] and VF, seen where f2 = F: the later write wins, so ADD,
SUB and SUBN leave the flag and SHR and SHL the shifted value; DRAW leaves the collision flag and LOAD the byte at
I + 15; every operand is the old VF (R70, R71). -/
def Obligations.LaterWriteWinsInVf : Prop :=
  ∀ (y : Reg) (n : Fin 16) (s : State),
    (∃ t, exec (.addReg 15 y) s = .next t ∧
      t.reg 15 = if (s.reg 15).toNat + (s.reg y).toNat > 255 then 1 else 0) ∧
    (∃ t, exec (.sub 15 y) s = .next t ∧ t.reg 15 = if (s.reg 15).toNat < (s.reg y).toNat then 0 else 1) ∧
    (∃ t, exec (.subn 15 y) s = .next t ∧ t.reg 15 = if (s.reg y).toNat < (s.reg 15).toNat then 0 else 1) ∧
    (∃ t, exec (.shr 15 y) s = .next t ∧ (t.reg 15).toNat = (s.reg 15).toNat / 2) ∧
    (∃ t, exec (.shl 15 y) s = .next t ∧ (t.reg 15).toNat = 2 * (s.reg 15).toNat % 256) ∧
    (s.indexAddress + 15 ≤ 4095 →
      (∃ t, exec (.draw 15 y n) s = .next t ∧ (t.reg 15 = 1 ↔ ∃ p, SpriteCovers s 15 y n p ∧ s.disp.lit p = true)) ∧
      (∃ t, exec (.load 15) s = .next t ∧ t.reg 15 = s.mem.read (s.indexAddress + 15)))

/-! ## Index register and memory -/

/-- LD I,addr, ADD I,Vx and LD I,FONT(Vx): the new I, with no other effect; ADD I wraps at 65536 and LD I,FONT
multiplies the whole byte by 5 (R120, R121, R122). -/
def Obligations.IndexRegisterWrites : Prop :=
  ∀ (addr : BitVec 12) (x : Reg) (s : State),
    EncodedAs (.ldI addr) 0xF000 0xA000 ∧ EncodedAs (.addI x) 0xF0FF 0xF01E ∧ EncodedAs (.ldIFont x) 0xF0FF 0xF029 ∧
    (∃ t, exec (.ldI addr) s = .next t ∧ t.i.toNat = addr.toNat ∧ UnchangedExcept [.i] s t) ∧
    (∃ t, exec (.addI x) s = .next t ∧ t.i.toNat = (s.i.toNat + (s.reg x).toNat) % 65536 ∧
      UnchangedExcept [.i] s t) ∧
    (∃ t, exec (.ldIFont x) s = .next t ∧ t.i.toNat = (s.reg x).toNat * 5 ∧ UnchangedExcept [.i] s t)

/-- BCD stores the hundreds, tens and ones digits at I, I+1, I+2 and changes nothing else; an access beyond 4095 is
OutOfBoundsAddress (R123). -/
def Obligations.BcdStoresThreeDigits : Prop :=
  ∀ (x : Reg) (s : State), EncodedAs (.bcd x) 0xF0FF 0xF033 ∧
    (s.indexAddress + 2 ≤ 4095 →
      ∃ t, exec (.bcd x) s = .next t ∧
        (t.mem.read s.indexAddress).toNat = (s.reg x).toNat / 100 ∧
        (t.mem.read (s.indexAddress + 1)).toNat = (s.reg x).toNat / 10 % 10 ∧
        (t.mem.read (s.indexAddress + 2)).toNat = (s.reg x).toNat % 10 ∧
        (∀ a, ¬(s.indexAddress ≤ a ∧ a ≤ s.indexAddress + 2) → t.mem.read a = s.mem.read a) ∧
        UnchangedExcept [.mem] s t) ∧
    (s.indexAddress = 4094 ∨ s.indexAddress = 4095 → exec (.bcd x) s = .fault (.outOfBoundsAddress 4096)) ∧
    (4096 ≤ s.indexAddress → exec (.bcd x) s = .fault (.outOfBoundsAddress s.indexAddress))

/-- STORE writes V0 to V[f2] at I upward and leaves I past the block; an access beyond 4095 is OutOfBoundsAddress
(R124). That the fault carries the lowest address above 4095, computed without a wrap, is the spec's decisions D3 and D4
(R42, R150). -/
def Obligations.StoreWritesTheRegisterBlock : Prop :=
  ∀ (x : Reg) (s : State), EncodedAs (.store x) 0xF0FF 0xF055 ∧
    (s.indexAddress + x.val ≤ 4095 →
      ∃ t, exec (.store x) s = .next t ∧
        (∀ r : Reg, r ≤ x → t.mem.read (s.indexAddress + r.val) = s.reg r) ∧
        (∀ a, ¬(s.indexAddress ≤ a ∧ a ≤ s.indexAddress + x.val) → t.mem.read a = s.mem.read a) ∧
        t.i.toNat = s.indexAddress + x.val + 1 ∧ UnchangedExcept [.mem, .i] s t) ∧
    (4095 < s.indexAddress + x.val →
      exec (.store x) s = .fault (.outOfBoundsAddress (if 4095 < s.indexAddress then s.indexAddress else 4096)))

/-- LOAD reads V0 to V[f2] from I upward, leaves the registers above and moves I past the block; an access beyond 4095
is OutOfBoundsAddress (R125). That the fault carries the lowest address above 4095, computed without a wrap, is the
spec's decisions D3 and D4 (R42, R150). -/
def Obligations.LoadReadsTheRegisterBlock : Prop :=
  ∀ (x : Reg) (s : State), EncodedAs (.load x) 0xF0FF 0xF065 ∧
    (s.indexAddress + x.val ≤ 4095 →
      ∃ t, exec (.load x) s = .next t ∧
        (∀ r : Reg, t.reg r = if r ≤ x then s.mem.read (s.indexAddress + r.val) else s.reg r) ∧
        t.i.toNat = s.indexAddress + x.val + 1 ∧ UnchangedExcept [.v, .i] s t) ∧
    (4095 < s.indexAddress + x.val →
      exec (.load x) s = .fault (.outOfBoundsAddress (if 4095 < s.indexAddress then s.indexAddress else 4096)))

/-- A stored block loads back: after STORE, LOAD with I put back gives every register its value again (R124, R125). -/
def Obligations.StoreThenLoadRestoresTheRegisters : Prop :=
  ∀ (x : Reg) (s u : State) (v : Vector Byte 16), exec (.store x) s = .next u →
    ∃ t, exec (.load x) { u with v := v, i := s.i } = .next t ∧ (∀ r : Reg, r ≤ x → t.reg r = s.reg r) ∧ t.i = u.i

/-- MemRead and MemWrite: the bytes in order when every address is below 4096 or there is none, else
OutOfBoundsAddress of the lowest address above 4095 (R42). -/
def Obligations.AccessesAreCheckedWhole : Prop :=
  ∀ (m : Memory) (a : Nat),
    (∀ k, k = 0 ∨ a + k ≤ 4096 → memRead m a k = .ok ((List.range k).map fun j => m.read (a + j))) ∧
    (∀ k, 0 < k → 4096 < a + k → memRead m a k = .error (.outOfBoundsAddress (if 4095 < a then a else 4096))) ∧
    (∀ bytes : List Byte, bytes.length = 0 ∨ a + bytes.length ≤ 4096 →
      ∃ m', memWrite m a bytes = .ok m' ∧ (∀ (j : Nat) (h : j < bytes.length), m'.read (a + j) = bytes[j]) ∧
        (∀ b, ¬(a ≤ b ∧ b < a + bytes.length) → m'.read b = m.read b)) ∧
    (∀ bytes : List Byte, 0 < bytes.length → 4096 < a + bytes.length →
      memWrite m a bytes = .error (.outOfBoundsAddress (if 4095 < a then a else 4096)))

/-- Bytes written by STORE are seen by the very next fetch of their addresses: no fence stands between (R50). -/
def Obligations.FetchSeesEarlierStores : Prop :=
  ∀ (x : Reg) (s t : State) (r : Reg), exec (.store x) s = .next t → r.val + 1 ≤ x.val →
    s.indexAddress + r.val = t.pc.toNat →
    fetch t = .ok (s.reg r ++ s.reg (Fin.ofNat 16 (r.val + 1)), { t with pc := t.pc + 2 })

/-- Canonical memories that read alike everywhere are equal data. -/
def Obligations.CanonicalMemoriesThatReadAlikeAreEqual : Prop :=
  ∀ m n : Memory, m.wf → n.wf → (∀ a, m.read a = n.read a) → m = n

/-! ## Display -/

/-- CLS clears every pixel and nothing else (R130). -/
def Obligations.ClsClearsTheDisplay : Prop :=
  encode .cls = 0x00E0 ∧
  ∀ s : State, ∃ t, exec .cls s = .next t ∧ (∀ p, t.disp.lit p = false) ∧ UnchangedExcept [.disp] s t

/-- DRAW inverts exactly the pixels that set sprite bits fall on, wrapping at both edges, sets VF to 1 exactly when one
of them was set, and changes nothing else; it faults exactly when a sprite row lies beyond 4095 (R131). That the fault
carries the lowest address above 4095, computed without a wrap, is the spec's decisions D3 and D4 (R42, R150). -/
def Obligations.DrawXorsTheSprite : Prop :=
  ∀ (x y : Reg) (n : Fin 16) (s : State), EncodedAs (.draw x y n) 0xF000 0xD000 ∧
    (n.val = 0 ∨ s.indexAddress + n.val - 1 ≤ 4095 →
      ∃ t, exec (.draw x y n) s = .next t ∧
        (∀ p, SpriteCovers s x y n p → t.disp.lit p = !s.disp.lit p) ∧
        (∀ p, ¬SpriteCovers s x y n p → t.disp.lit p = s.disp.lit p) ∧
        ((∃ p, SpriteCovers s x y n p ∧ s.disp.lit p = true) → t.reg 15 = 1) ∧
        ((¬∃ p, SpriteCovers s x y n p ∧ s.disp.lit p = true) → t.reg 15 = 0) ∧
        (∀ r, r ≠ 15 → t.reg r = s.reg r) ∧ UnchangedExcept [.v, .disp] s t) ∧
    (1 ≤ n.val → 4095 < s.indexAddress + n.val - 1 →
      exec (.draw x y n) s = .fault (.outOfBoundsAddress (if 4095 < s.indexAddress then s.indexAddress else 4096)))

/-- Within one DRAW no pixel is toggled twice: the pixels of at most 15 rows are all different (R131 (c)). -/
def Obligations.DrawTogglesNoPixelTwice : Prop :=
  ∀ (x y : Byte) (rows : List Byte), rows.length ≤ 15 → (spritePixels x y 0 rows).Nodup

/-- Drawing a sprite twice at one place, its coordinates not in VF, restores the display; the second draw reports
VF = 1 exactly when the sprite has a set bit and the display was blank before, and the first on a blank display
reports VF = 0 (R131 (g)). -/
def Obligations.DrawingTwiceRestoresTheDisplay : Prop :=
  ∀ (x y : Reg) (n : Fin 16) (s t : State), x ≠ 15 → y ≠ 15 → exec (.draw x y n) s = .next t →
    ∃ u, exec (.draw x y n) t = .next u ∧ u.disp = s.disp ∧
      (s.disp = Display.blank → t.reg 15 = 0 ∧ (u.reg 15 = 1 ↔ ∃ p, SpriteCovers s x y n p))

/-- DISPLAY gives the 2048 pixels in the order index = x + 64*y (R161, R19). -/
def Obligations.DisplayIsRowMajor : Prop :=
  ∀ (s : State) (p : Pixel) (h : p.1.val + 64 * p.2.val < 2048),
    (display s)[p.1.val + 64 * p.2.val] = s.disp.lit p

/-! ## Keypad and timers -/

/-- SKP and SKNP skip by the flag of the key numbered by the register; a number above 15 is InvalidKeyIndex, not masked
(R140, R141). -/
def Obligations.KeySkipsTestTheNumberedKey : Prop :=
  ∀ (x : Reg) (s : State), EncodedAs (.skp x) 0xF0FF 0xE09E ∧ EncodedAs (.sknp x) 0xF0FF 0xE0A1 ∧
    (∀ k : Fin 16, (s.reg x).toNat = k.val →
      (∃ t, exec (.skp x) s = .next t ∧ t.pc = (if s.key[k] then s.pc + 2 else s.pc) ∧ UnchangedExcept [.pc] s t) ∧
      (∃ t, exec (.sknp x) s = .next t ∧ t.pc = (if s.key[k] then s.pc else s.pc + 2) ∧ UnchangedExcept [.pc] s t)) ∧
    (16 ≤ (s.reg x).toNat →
      exec (.skp x) s = .fault (.invalidKeyIndex (s.reg x).toNat) ∧
      exec (.sknp x) s = .fault (.invalidKeyIndex (s.reg x).toNat))

/-- LD Vx,DT, LD DT,Vx and LD ST,Vx copy between a V register and a timer and do nothing else; LD ST,Vx leaves BEEP
(R142, R144, R145). -/
def Obligations.TimerMoves : Prop :=
  ∀ (x : Reg) (s : State),
    EncodedAs (.ldVxDt x) 0xF0FF 0xF007 ∧ EncodedAs (.ldDtVx x) 0xF0FF 0xF015 ∧ EncodedAs (.ldStVx x) 0xF0FF 0xF018 ∧
    (∃ t, exec (.ldVxDt x) s = .next t ∧ (∀ r, t.reg r = if r = x then s.dt else s.reg r) ∧
      UnchangedExcept [.v] s t) ∧
    (∃ t, exec (.ldDtVx x) s = .next t ∧ t.dt = s.reg x ∧ UnchangedExcept [.dt] s t) ∧
    (∃ t, exec (.ldStVx x) s = .next t ∧ t.st = s.reg x ∧ UnchangedExcept [.st] s t)

/-- LD Vx,KEY: with no key pressed PC goes back by 2 and nothing else changes; with a key pressed V[f2] receives the
number of a pressed key, a function of the flags alone, and the flags stay (R143). -/
def Obligations.LdVxKeyReportsAPressedKey : Prop :=
  (∀ x : Reg, EncodedAs (.ldVxKey x) 0xF0FF 0xF00A) ∧
  (∀ (x : Reg) (s : State), (∀ k : Fin 16, s.key[k] = false) →
    ∃ t, exec (.ldVxKey x) s = .next t ∧ t.pc = s.pc - 2 ∧ UnchangedExcept [.pc] s t) ∧
  ∃ pick : Keys → Fin 16,
    (∀ keys : Keys, (∃ k : Fin 16, keys[k] = true) → keys[pick keys] = true) ∧
    ∀ (x : Reg) (s : State), (∃ k : Fin 16, s.key[k] = true) →
      ∃ t, exec (.ldVxKey x) s = .next t ∧
        (∀ r, t.reg r = if r = x then BitVec.ofNat 8 (pick s.key).val else s.reg r) ∧ UnchangedExcept [.v] s t

/-- Waiting for a key with none pressed is a step that succeeds and leaves the whole state exactly as it was (R186,
R143 (a)). -/
def Obligations.KeyWaitLeavesTheWholeState : Prop :=
  ∀ (x : Reg) (s : State), s.pc.toNat ≤ 4094 → decode (wordAtPc s) = some (.ldVxKey x) →
    (∀ k : Fin 16, s.key[k] = false) → step s = .next s

/-! ## The host operations -/

/-- TICK counts both timers down, each staying at zero, sets BEEP by whether ST was above zero, changes nothing else
and cannot fault (R158). -/
def Obligations.TickCountsDownAndLatchesBeep : Prop :=
  ∀ s : State, ∃ t, perform .tick s = .next t ∧ t.dt.toNat = s.dt.toNat - 1 ∧ t.st.toNat = s.st.toNat - 1 ∧
    (t.beep = true ↔ 0 < s.st.toNat) ∧ UnchangedExcept [.dt, .st, .beep] s t

/-- BEEPING after LD ST,Vx with k = vx and then j + 1 TICKs is true exactly while j < k: true after each of the k
ticks, the one that reaches 0 included, and false from tick k + 1 on (R159). -/
def Obligations.BeepLastsExactlyTheSoundTimer : Prop :=
  ∀ (x : Reg) (s t : State) (j : Nat), exec (.ldStVx x) s = .next t →
    ∃ u, performAll (List.replicate (j + 1) .tick) t = .next u ∧
      beeping u = decide (j < (s.reg x).toNat) ∧ u.st.toNat = (s.reg x).toNat - (j + 1)

/-- SETKEY writes one flag and nothing else for an index 0 to 15, and is InvalidKeyIndex for every other integer
(R160). -/
def Obligations.SetKeyWritesOneFlag : Prop :=
  ∀ (index : Int) (pressed : Bool) (s : State),
    (0 ≤ index ∧ index ≤ 15 → ∃ t, perform (.setKey index pressed) s = .next t ∧
      (∀ k : Fin 16, t.key[k] = if (k.val : Int) = index then pressed else s.key[k]) ∧
      UnchangedExcept [.key] s t) ∧
    (index < 0 ∨ 15 < index → perform (.setKey index pressed) s = .fault (.invalidKeyIndex index))

/-- LOAD copies the image to 0x200 upward and changes nothing else; an image of more than 3584 bytes is
ProgramTooLarge (R182). -/
def Obligations.LoadCopiesTheImage : Prop :=
  ∀ (bytes : List Byte) (s : State),
    (bytes.length ≤ 3584 → ∃ t, perform (.load bytes) s = .next t ∧
      (∀ (j : Nat) (h : j < bytes.length), t.mem.read (0x200 + j) = bytes[j]) ∧
      (∀ a, ¬(0x200 ≤ a ∧ a < 0x200 + bytes.length) → t.mem.read a = s.mem.read a) ∧
      UnchangedExcept [.mem] s t) ∧
    (3584 < bytes.length → perform (.load bytes) s = .fault (.programTooLarge bytes.length))

/-- A STEP that faults goes on faulting the same way, for every random byte, whatever STEPs, TICKs and SETKEYs the host
requests, themselves faulting or not, and none of these changes memory, a V register, PC, I, the stack or the display;
RESET ends every fault; a LOAD can end one with PC from 0x200 to 4094, and no LOAD ends one of a PC above 4094 (R152,
R155; that a fault changes nothing is the spec's decision D2). -/
def Obligations.OnlyLoadAndResetEndAFault : Prop :=
  (∀ (ops : List Operation) (s : State) (rnd : Byte) (f : Fault),
    perform (.step rnd) s = .fault f → (∀ op ∈ ops, op.canEndFault = false) →
      UnchangedExcept [.dt, .st, .beep, .key] s (recordAfterAll ops s) ∧
      ∀ rnd', perform (.step rnd') (recordAfterAll ops s) = .fault f) ∧
  (∀ s : State, ∃ t, perform .reset s = .next t ∧ ∀ rnd, ∃ u, perform (.step rnd) t = .next u) ∧
  (∀ s : State, 0x200 ≤ s.pc.toNat → s.pc.toNat ≤ 4094 →
    ∃ bytes t, perform (.load bytes) s = .next t ∧ ∀ rnd, ∃ u, perform (.step rnd) t = .next u) ∧
  (∀ (s t : State) (bytes : List Byte) (rnd : Byte), 4095 ≤ s.pc.toNat → perform (.load bytes) s = .next t →
    ∃ f, perform (.step rnd) s = .fault f ∧ perform (.step rnd) t = .fault f)

/-! ## Frames over all instructions -/

/-- Every instruction leaves every component it does not write: the Written by column of the state table (R10). -/
def Obligations.InstructionsKeepToTheirComponents : Prop :=
  ∀ (i : Instr) (s t : State), exec i s = .next t → UnchangedExcept (writes i) s t

/-- Every instruction leaves every V register that is not its destination, VF included unless it is one of the six that
write it (R11, R12). -/
def Obligations.InstructionsKeepOtherRegisters : Prop :=
  ∀ (i : Instr) (s t : State) (r : Reg), exec i s = .next t → mayWriteReg i r = false → t.reg r = s.reg r

/-- Every byte of memory outside the bytes the instruction stores to reads as before; only BCD and STORE store
(R44). -/
def Obligations.InstructionsKeepOtherMemory : Prop :=
  ∀ (i : Instr) (s t : State) (a : Nat), exec i s = .next t → ¬storesTo i s a → t.mem.read a = s.mem.read a

/-! ## Invariants -/

/-- The reset state meets the invariant: PC and the stack by the values R22 gives, and memory lists nothing, in the
canonical form that is the model's choice (notes/assumptions/4). -/
def Obligations.ResetMeetsTheInvariant : Prop := Invariant State.reset

/-- Every step keeps the invariant: canonical memory, PC at most 0x10FE, return addresses in use between 2 and 4096
(R13, R81). -/
def Obligations.StepKeepsTheInvariant : Prop :=
  ∀ s t : State, Invariant s → step s = .next t → Invariant t

/-- Every host operation keeps the invariant, in every interleaving: a state that any sequence of operations reaches
meets it (R13, R81, R23, R187). -/
def Obligations.ReachableStatesMeetTheInvariant : Prop :=
  (∀ s, Reachable s → Invariant s) ∧
  (∀ (ops : List Operation) (s t : State), Invariant s → performAll ops s = .next t → Invariant t)

/-! ## Runs -/

/-- Zeroed memory runs as NOPs: where the k words from PC on are zero and exist, k steps move PC past them and change
nothing else, from every state (R80, R181). -/
def Obligations.ZeroedWordsRunAsNops : Prop :=
  ∀ (k : Nat) (s : State), s.pc.toNat + 2 * k ≤ 4096 →
    (∀ a, s.pc.toNat ≤ a → a < s.pc.toNat + 2 * k → s.mem.read a = 0) →
    stepTimes k s = .next { s with pc := s.pc + BitVec.ofNat 16 (2 * k) }
end

