-- ==== Sys2Proof/Laws/Decode.lean ====
section
/-! SUPPORT. The fields of the words the encoder builds, and the bytes of a word. -/

namespace Sys2Proof

@[simp] theorem nibbleReg_regNibble (r : Fin 16) : nibbleReg (regNibble r) = r := by
  revert r; decide

@[simp] theorem regNibble_nibbleReg (b : BitVec 4) : regNibble (nibbleReg b) = b := by
  revert b; decide

/-- A word is its high byte followed by its low byte (R45). -/
@[simp] theorem wordOfBytes_bytes (w : Word) : wordOfBytes (highByte w) (lowByte w) = w := by
  unfold wordOfBytes highByte lowByte
  apply BitVec.eq_of_getLsbD_eq
  intro i hi
  rw [BitVec.getLsbD_append]
  by_cases h : i < 8
  · simp [h]
  · have h1 : i - 8 < 8 := by omega
    have h2 : 8 + (i - 8) = i := by omega
    simp [h, h1, h2]

/-! ## The bits of each word shape -/

theorem getLsbD_wordA (op : BitVec 4) (a : BitVec 12) (i : Nat) :
    (wordA op a).getLsbD i = if i < 12 then a.getLsbD i else op.getLsbD (i - 12) := by
  rw [wordA, BitVec.getLsbD_append]

theorem getLsbD_wordXI (op : BitVec 4) (x : Reg) (m : Byte) (i : Nat) :
    (wordXI op x m).getLsbD i =
      if i < 8 then m.getLsbD i else if i < 12 then (regNibble x).getLsbD (i - 8) else op.getLsbD (i - 12) := by
  rw [wordXI, BitVec.getLsbD_append, BitVec.getLsbD_append]
  by_cases h : i < 8
  · have h' : i < 12 := by omega
    simp [h, h']
  · by_cases h' : i < 12 <;> simp [h, h']

theorem getLsbD_wordXYN (op : BitVec 4) (x y : Reg) (n : BitVec 4) (i : Nat) :
    (wordXYN op x y n).getLsbD i =
      if i < 4 then n.getLsbD i else if i < 8 then (regNibble y).getLsbD (i - 4)
      else if i < 12 then (regNibble x).getLsbD (i - 8) else op.getLsbD (i - 12) := by
  rw [wordXYN, BitVec.getLsbD_append, BitVec.getLsbD_append, BitVec.getLsbD_append]
  by_cases h4 : i < 4
  · have h8 : i < 8 := by omega
    have h12 : i < 12 := by omega
    simp [h4, h8, h12]
  · by_cases h8 : i < 8
    · have h12 : i < 12 := by omega
      simp [h4, h8, h12]
    · by_cases h12 : i < 12 <;> simp [h4, h8, h12]

/-! ## The fields of each word shape -/

@[simp] theorem f1_wordA (op : BitVec 4) (a : BitVec 12) : f1 (wordA op a) = op := by
  apply BitVec.eq_of_getLsbD_eq
  intro i hi
  simp [f1, getLsbD_wordA, hi]

@[simp] theorem addrField_wordA (op : BitVec 4) (a : BitVec 12) : addrField (wordA op a) = a := by
  apply BitVec.eq_of_getLsbD_eq
  intro i hi
  simp [addrField, getLsbD_wordA, hi]

@[simp] theorem f1_wordXI (op : BitVec 4) (x : Reg) (m : Byte) : f1 (wordXI op x m) = op :=
  f1_wordA op _

@[simp] theorem f2_wordXI (op : BitVec 4) (x : Reg) (m : Byte) : f2 (wordXI op x m) = regNibble x := by
  apply BitVec.eq_of_getLsbD_eq
  intro i hi
  have h : 8 + i < 12 := by omega
  simp [f2, getLsbD_wordXI, hi, h]

@[simp] theorem immField_wordXI (op : BitVec 4) (x : Reg) (m : Byte) : immField (wordXI op x m) = m := by
  apply BitVec.eq_of_getLsbD_eq
  intro i hi
  simp [immField, getLsbD_wordXI, hi]

@[simp] theorem f1_wordXYN (op : BitVec 4) (x y : Reg) (n : BitVec 4) : f1 (wordXYN op x y n) = op :=
  f1_wordA op _

@[simp] theorem f2_wordXYN (op : BitVec 4) (x y : Reg) (n : BitVec 4) : f2 (wordXYN op x y n) = regNibble x :=
  f2_wordXI op x _

@[simp] theorem f3_wordXYN (op : BitVec 4) (x y : Reg) (n : BitVec 4) : f3 (wordXYN op x y n) = regNibble y := by
  apply BitVec.eq_of_getLsbD_eq
  intro i hi
  have h : 4 + i < 8 := by omega
  simp [f3, getLsbD_wordXYN, hi, h]

@[simp] theorem f4_wordXYN (op : BitVec 4) (x y : Reg) (n : BitVec 4) : f4 (wordXYN op x y n) = n := by
  apply BitVec.eq_of_getLsbD_eq
  intro i hi
  simp [f4, getLsbD_wordXYN, hi]

end Sys2Proof
end

