-- ==== Sys2Proof/Laws/Draw.lean ====
section
/-! SUPPORT. The laws of the display: one toggle, many toggles, and which pixels a sprite toggles. -/

namespace Sys2Proof.Machine

@[simp] theorem Display.lit_blank (p : Pixel) : Display.blank.lit p = false := by
  simp [Display.blank, Display.lit]

/-- A toggle inverts its own pixel and leaves every other pixel alone. -/
theorem Display.lit_toggle (d : Display) (p q : Pixel) :
    (d.toggle p).lit q = if q = p then !d.lit p else d.lit q := by
  obtain ⟨px, py⟩ := p
  obtain ⟨qx, qy⟩ := q
  unfold Display.toggle Display.lit
  by_cases hy : qy = py
  · subst hy
    by_cases hx : qx = px
    · subst hx; simp
    · have hv : qx.val ≠ px.val := fun e => hx (Fin.ext e)
      simp [hx, hv]
  · have hv : py.val ≠ qy.val := fun e => hy (Fin.ext e.symm)
    simp [hy, hv, Vector.getElem_set_ne]

/-- Toggling pixels that are all different inverts exactly those pixels. -/
theorem togglePixels_lit (d : Display) (ps : List Pixel) (h : ps.Nodup) (q : Pixel) :
    (togglePixels d ps).1.lit q = if q ∈ ps then !d.lit q else d.lit q := by
  induction ps generalizing d with
  | nil => simp [togglePixels]
  | cons p rest ih =>
    rw [List.nodup_cons] at h
    simp only [togglePixels, ih (d.toggle p) h.2, Display.lit_toggle]
    by_cases hq : q = p
    · subst hq; simp [h.1]
    · simp [hq]

/-- The collision flag of toggling pixels that are all different: one of them was set. -/
theorem togglePixels_collision (d : Display) (ps : List Pixel) (h : ps.Nodup) :
    (togglePixels d ps).2 = ps.any d.lit := by
  induction ps generalizing d with
  | nil => rfl
  | cons p rest ih =>
    rw [List.nodup_cons] at h
    simp only [togglePixels, ih (d.toggle p) h.2, List.any_cons]
    congr 1
    rw [Bool.eq_iff_iff, List.any_eq_true, List.any_eq_true]
    constructor
    · rintro ⟨q, hq, hl⟩
      have : q ≠ p := fun e => h.1 (e ▸ hq)
      exact ⟨q, hq, by simpa [Display.lit_toggle, this] using hl⟩
    · rintro ⟨q, hq, hl⟩
      have : q ≠ p := fun e => h.1 (e ▸ hq)
      exact ⟨q, hq, by simpa [Display.lit_toggle, this] using hl⟩

theorem mem_rowPixels {x y : Byte} {j : Nat} {row : Byte} {p : Pixel} :
    p ∈ rowPixels x y j row ↔ ∃ col, col < 8 ∧ spriteBit row col = true ∧ spritePixel x y j col = p := by
  simp [rowPixels, and_assoc]

/-- A pixel is toggled exactly when a set bit of some row falls on it. -/
theorem mem_spritePixels {x y : Byte} {j : Nat} {rows : List Byte} {p : Pixel} :
    p ∈ spritePixels x y j rows ↔
      ∃ k row, rows[k]? = some row ∧ ∃ col, col < 8 ∧ spriteBit row col = true ∧ spritePixel x y (j + k) col = p := by
  induction rows generalizing j with
  | nil => simp [spritePixels]
  | cons r rest ih =>
    rw [spritePixels, List.mem_append, mem_rowPixels, ih]
    constructor
    · rintro (h | ⟨k, row, hk, h⟩)
      · exact ⟨0, r, rfl, h⟩
      · refine ⟨k + 1, row, by simpa using hk, ?_⟩
        have e : j + 1 + k = j + (k + 1) := by omega
        rwa [e] at h
    · rintro ⟨k, row, hk, h⟩
      cases k with
      | zero =>
        have : r = row := by simpa using hk
        subst this
        exact .inl h
      | succ k =>
        refine .inr ⟨k, row, by simpa using hk, ?_⟩
        have e : j + 1 + k = j + (k + 1) := by omega
        rwa [e]

end Sys2Proof.Machine
end

