-- ==== Sys2Proof/Laws/Memory.lean ====
section
/-! SUPPORT. The laws of memory: read after write, the canonical form, and what the bounded accesses answer. -/

namespace Sys2Proof.Machine

/-! ## One byte -/

theorem Memory.read_place (m : Memory) (a b : Nat) (x : Byte) (h : ∀ c ∈ m, c.1 ≠ a) :
    (Memory.place m a x).read b = if b = a then x else m.read b := by
  induction m with
  | nil => simp [Memory.place, Memory.read, eq_comm]
  | cons c rest ih =>
    have hc : c.1 ≠ a := h c (by simp)
    have hr : ∀ d ∈ rest, d.1 ≠ a := fun d hd => h d (by simp [hd])
    by_cases hlt : a < c.1
    · simp [Memory.place, Memory.read, hlt, eq_comm]
    · by_cases hb : c.1 = b
      · subst hb; simp [Memory.place, Memory.read, hlt, hc]
      · simp [Memory.place, Memory.read, hlt, hb, ih hr]

theorem Memory.read_filter (m : Memory) (a b : Nat) :
    Memory.read (m.filter fun c => c.1 != a) b = if b = a then initialByte a else m.read b := by
  induction m with
  | nil => by_cases h : b = a <;> simp [Memory.read, h]
  | cons c rest ih =>
    by_cases hc : c.1 = a
    · by_cases hb : b = a
      · subst hb; simpa [hc] using ih
      · have hab : a ≠ b := fun e => hb e.symm
        simpa [hc, hb, Memory.read, hab] using ih
    · by_cases hb : c.1 = b
      · subst hb; simp [hc, Memory.read]
      · simp [hc, hb, Memory.read, ih]

/-- A byte reads back what was written to it, and every other byte keeps its value. -/
@[simp] theorem Memory.read_write (m : Memory) (a b : Nat) (x : Byte) :
    (m.write a x).read b = if b = a then x else m.read b := by
  unfold Memory.write
  by_cases hx : x = initialByte a
  · simp only [hx, if_true, Memory.read_filter]
  · simp only [hx, if_false]
    rw [Memory.read_place _ _ _ _ (by simp), Memory.read_filter]
    by_cases hb : b = a <;> simp [hb]

/-! ## The canonical form -/

theorem Memory.mem_place {m : Memory} {a : Nat} {x : Byte} {c : Host.Cell} :
    c ∈ Memory.place m a x ↔ c = (a, x) ∨ c ∈ m := by
  induction m with
  | nil => simp [Memory.place]
  | cons d rest ih =>
    by_cases hlt : a < d.1
    · simp [Memory.place, hlt]
    · simp [Memory.place, hlt, ih]; tauto

theorem Memory.pairwise_place {m : Memory} {a : Nat} {x : Byte}
    (hm : m.Pairwise fun c d => c.1 < d.1) (ha : ∀ c ∈ m, c.1 ≠ a) :
    (Memory.place m a x).Pairwise fun c d => c.1 < d.1 := by
  induction m with
  | nil => simp [Memory.place]
  | cons d rest ih =>
    rw [List.pairwise_cons] at hm
    have hd : d.1 ≠ a := ha d (by simp)
    by_cases hlt : a < d.1
    · simp only [Memory.place, hlt, if_true, List.pairwise_cons]
      refine ⟨?_, hm⟩
      intro c hc
      rcases List.mem_cons.1 hc with rfl | hc
      · exact hlt
      · exact Nat.lt_trans hlt (hm.1 c hc)
    · simp only [Memory.place, hlt, if_false, List.pairwise_cons]
      refine ⟨?_, ih hm.2 fun c hc => ha c (by simp [hc])⟩
      intro c hc
      rcases Memory.mem_place.1 hc with rfl | hc
      · show d.1 < a
        omega
      · exact hm.1 c hc

/-- Writing a byte below 4096 keeps the canonical form. -/
theorem Memory.wf_write {m : Memory} {a : Nat} {x : Byte} (hm : m.wf) (ha : a < 4096) : (m.write a x).wf := by
  have hf : Memory.wf (m.filter fun c => c.1 != a) :=
    ⟨hm.1.filter _, fun c hc => hm.2 c (List.mem_of_mem_filter hc)⟩
  unfold Memory.write
  by_cases hx : x = initialByte a
  · simpa only [hx, if_true] using hf
  · simp only [hx, if_false]
    refine ⟨Memory.pairwise_place hf.1 (by simp), ?_⟩
    intro c hc
    rcases Memory.mem_place.1 hc with rfl | hc
    · exact ⟨ha, hx⟩
    · exact hf.2 c hc

theorem Memory.read_eq_initial {m : Memory} {a : Nat} (h : ∀ c ∈ m, c.1 ≠ a) : m.read a = initialByte a := by
  induction m with
  | nil => rfl
  | cons c rest ih =>
    rw [Memory.read, if_neg (h c (by simp))]
    exact ih fun d hd => h d (by simp [hd])

/-! ## Runs of bytes -/

@[simp] theorem Memory.readBytes_length (m : Memory) (a k : Nat) : (m.readBytes a k).length = k := by
  simp [Memory.readBytes]

@[simp] theorem Memory.readBytes_getElem (m : Memory) (a k j : Nat) (h : j < (m.readBytes a k).length) :
    (m.readBytes a k)[j] = m.read (a + j) := by
  simp [Memory.readBytes]

theorem Memory.readBytes_getElem? (m : Memory) (a k j : Nat) :
    (m.readBytes a k)[j]? = if j < k then some (m.read (a + j)) else none := by
  by_cases h : j < k
  · rw [List.getElem?_eq_getElem (by simpa using h), if_pos h, Memory.readBytes_getElem]
  · rw [List.getElem?_eq_none (by simpa using h), if_neg h]

/-- After storing bytes at a, each address reads its byte, and every other address keeps its value. -/
theorem Memory.read_writeBytes (bytes : List Byte) (m : Memory) (a b : Nat) :
    (m.writeBytes a bytes).read b =
      if a ≤ b then (bytes[b - a]?).getD (m.read b) else m.read b := by
  induction bytes generalizing m a with
  | nil => simp [Memory.writeBytes]
  | cons x rest ih =>
    rw [Memory.writeBytes, ih, Memory.read_write]
    rcases Nat.lt_trichotomy b a with h | h | h
    · rw [if_neg (by omega), if_neg (by omega), if_neg (by omega)]
    · subst h
      rw [if_neg (by omega), if_pos rfl, if_pos (Nat.le_refl _)]
      simp
    · rw [if_pos (by omega), if_neg (by omega), if_pos (by omega)]
      obtain ⟨d, rfl⟩ : ∃ d, b = a + (d + 1) := ⟨b - a - 1, by omega⟩
      have e1 : a + (d + 1) - (a + 1) = d := by omega
      have e2 : a + (d + 1) - a = d + 1 := by omega
      rw [e1, e2]
      simp

/-- Storing bytes below 4096 keeps the canonical form. -/
theorem Memory.wf_writeBytes {bytes : List Byte} {m : Memory} {a : Nat} (hm : m.wf)
    (h : a + bytes.length ≤ 4096) : (m.writeBytes a bytes).wf := by
  induction bytes generalizing m a with
  | nil => exact hm
  | cons x rest ih =>
    simp only [List.length_cons] at h
    exact ih (Memory.wf_write hm (by omega)) (by omega)

/-! ## Bounded accesses -/

theorem firstOutOfBounds_none {a k : Nat} : firstOutOfBounds a k = none ↔ k = 0 ∨ a + k ≤ 4096 := by
  unfold firstOutOfBounds
  split <;> simp_all

/-- MemRead answers the bytes exactly when the access is in bounds (R42). -/
theorem memRead_ok {m : Memory} {a k : Nat} (h : k = 0 ∨ a + k ≤ 4096) : memRead m a k = .ok (m.readBytes a k) := by
  simp [memRead, firstOutOfBounds_none.2 h]

theorem memRead_error {m : Memory} {a k : Nat} (h : ¬(k = 0 ∨ a + k ≤ 4096)) :
    memRead m a k = .error (.outOfBoundsAddress (max a 4096)) := by
  simp [memRead, firstOutOfBounds, h]

/-- MemWrite answers the written memory exactly when the access is in bounds (R42). -/
theorem memWrite_ok {m : Memory} {a : Nat} {bytes : List Byte} (h : bytes.length = 0 ∨ a + bytes.length ≤ 4096) :
    memWrite m a bytes = .ok (m.writeBytes a bytes) := by
  simp [memWrite, firstOutOfBounds_none.2 h]

theorem memWrite_error {m : Memory} {a : Nat} {bytes : List Byte}
    (h : ¬(bytes.length = 0 ∨ a + bytes.length ≤ 4096)) :
    memWrite m a bytes = .error (.outOfBoundsAddress (max a 4096)) := by
  have e : firstOutOfBounds a bytes.length = some (max a 4096) := if_neg h
  simp [memWrite, e]

/-- Everything MemWrite can answer: the bytes stored, or the fault. -/
theorem memWrite_cases {m m' : Memory} {a : Nat} {bytes : List Byte} (h : memWrite m a bytes = .ok m') :
    (bytes.length = 0 ∨ a + bytes.length ≤ 4096) ∧ m' = m.writeBytes a bytes := by
  by_cases hb : bytes.length = 0 ∨ a + bytes.length ≤ 4096
  · rw [memWrite_ok hb] at h; exact ⟨hb, (Except.ok.inj h).symm⟩
  · rw [memWrite_error hb] at h; cases h

/-- Everything MemRead can answer. -/
theorem memRead_cases {m : Memory} {a k : Nat} {bytes : List Byte} (h : memRead m a k = .ok bytes) :
    (k = 0 ∨ a + k ≤ 4096) ∧ bytes = m.readBytes a k := by
  by_cases hb : k = 0 ∨ a + k ≤ 4096
  · rw [memRead_ok hb] at h; exact ⟨hb, (Except.ok.inj h).symm⟩
  · rw [memRead_error hb] at h; cases h

/-- A write that MemWrite allows keeps the canonical form. -/
theorem memWrite_wf {m m' : Memory} {a : Nat} {bytes : List Byte} (hm : m.wf) (h : memWrite m a bytes = .ok m') :
    m'.wf := by
  obtain ⟨hb, rfl⟩ := memWrite_cases h
  rcases hb with hb | hb
  · rw [List.length_eq_zero_iff.1 hb]; exact hm
  · exact Memory.wf_writeBytes hm hb

end Sys2Proof.Machine
end

