-- ==== Sys2Proof/Laws/State.lean ====
section
/-! SUPPORT. What each update of the state record writes and leaves: one lemma per field per update, and the register
read after each update. -/

namespace Sys2Proof.Machine

/-! ## setReg -/

@[simp] theorem State.setReg_mem (s : State) (r : Reg) (x : Byte) : (s.setReg r x).mem = s.mem := rfl
@[simp] theorem State.setReg_v (s : State) (r : Reg) (x : Byte) : (s.setReg r x).v = s.v.set r x := rfl
@[simp] theorem State.setReg_pc (s : State) (r : Reg) (x : Byte) : (s.setReg r x).pc = s.pc := rfl
@[simp] theorem State.setReg_i (s : State) (r : Reg) (x : Byte) : (s.setReg r x).i = s.i := rfl
@[simp] theorem State.setReg_stack (s : State) (r : Reg) (x : Byte) : (s.setReg r x).stack = s.stack := rfl
@[simp] theorem State.setReg_sp (s : State) (r : Reg) (x : Byte) : (s.setReg r x).sp = s.sp := rfl
@[simp] theorem State.setReg_dt (s : State) (r : Reg) (x : Byte) : (s.setReg r x).dt = s.dt := rfl
@[simp] theorem State.setReg_st (s : State) (r : Reg) (x : Byte) : (s.setReg r x).st = s.st := rfl
@[simp] theorem State.setReg_beep (s : State) (r : Reg) (x : Byte) : (s.setReg r x).beep = s.beep := rfl
@[simp] theorem State.setReg_disp (s : State) (r : Reg) (x : Byte) : (s.setReg r x).disp = s.disp := rfl
@[simp] theorem State.setReg_key (s : State) (r : Reg) (x : Byte) : (s.setReg r x).key = s.key := rfl
@[simp] theorem State.setReg_draws (s : State) (r : Reg) (x : Byte) : (s.setReg r x).draws = s.draws := rfl

/-! ## loadRegs -/

@[simp] theorem State.loadRegs_mem (s : State) (bytes : List Byte) : (s.loadRegs bytes).mem = s.mem := rfl
@[simp] theorem State.loadRegs_v (s : State) (bytes : List Byte) : (s.loadRegs bytes).v = Vector.ofFn fun r : Fin 16 => (bytes[r.val]?).getD (s.reg r) := rfl
@[simp] theorem State.loadRegs_pc (s : State) (bytes : List Byte) : (s.loadRegs bytes).pc = s.pc := rfl
@[simp] theorem State.loadRegs_i (s : State) (bytes : List Byte) : (s.loadRegs bytes).i = s.i := rfl
@[simp] theorem State.loadRegs_stack (s : State) (bytes : List Byte) : (s.loadRegs bytes).stack = s.stack := rfl
@[simp] theorem State.loadRegs_sp (s : State) (bytes : List Byte) : (s.loadRegs bytes).sp = s.sp := rfl
@[simp] theorem State.loadRegs_dt (s : State) (bytes : List Byte) : (s.loadRegs bytes).dt = s.dt := rfl
@[simp] theorem State.loadRegs_st (s : State) (bytes : List Byte) : (s.loadRegs bytes).st = s.st := rfl
@[simp] theorem State.loadRegs_beep (s : State) (bytes : List Byte) : (s.loadRegs bytes).beep = s.beep := rfl
@[simp] theorem State.loadRegs_disp (s : State) (bytes : List Byte) : (s.loadRegs bytes).disp = s.disp := rfl
@[simp] theorem State.loadRegs_key (s : State) (bytes : List Byte) : (s.loadRegs bytes).key = s.key := rfl
@[simp] theorem State.loadRegs_draws (s : State) (bytes : List Byte) : (s.loadRegs bytes).draws = s.draws := rfl

/-! ## setPc -/

@[simp] theorem State.setPc_mem (s : State) (a : Word) : (s.setPc a).mem = s.mem := rfl
@[simp] theorem State.setPc_v (s : State) (a : Word) : (s.setPc a).v = s.v := rfl
@[simp] theorem State.setPc_pc (s : State) (a : Word) : (s.setPc a).pc = a := rfl
@[simp] theorem State.setPc_i (s : State) (a : Word) : (s.setPc a).i = s.i := rfl
@[simp] theorem State.setPc_stack (s : State) (a : Word) : (s.setPc a).stack = s.stack := rfl
@[simp] theorem State.setPc_sp (s : State) (a : Word) : (s.setPc a).sp = s.sp := rfl
@[simp] theorem State.setPc_dt (s : State) (a : Word) : (s.setPc a).dt = s.dt := rfl
@[simp] theorem State.setPc_st (s : State) (a : Word) : (s.setPc a).st = s.st := rfl
@[simp] theorem State.setPc_beep (s : State) (a : Word) : (s.setPc a).beep = s.beep := rfl
@[simp] theorem State.setPc_disp (s : State) (a : Word) : (s.setPc a).disp = s.disp := rfl
@[simp] theorem State.setPc_key (s : State) (a : Word) : (s.setPc a).key = s.key := rfl
@[simp] theorem State.setPc_draws (s : State) (a : Word) : (s.setPc a).draws = s.draws := rfl
@[simp] theorem State.setPc_reg (s : State) (a : Word) (q : Reg) : (s.setPc a).reg q = s.reg q := rfl

/-! ## setI -/

@[simp] theorem State.setI_mem (s : State) (a : Word) : (s.setI a).mem = s.mem := rfl
@[simp] theorem State.setI_v (s : State) (a : Word) : (s.setI a).v = s.v := rfl
@[simp] theorem State.setI_pc (s : State) (a : Word) : (s.setI a).pc = s.pc := rfl
@[simp] theorem State.setI_i (s : State) (a : Word) : (s.setI a).i = a := rfl
@[simp] theorem State.setI_stack (s : State) (a : Word) : (s.setI a).stack = s.stack := rfl
@[simp] theorem State.setI_sp (s : State) (a : Word) : (s.setI a).sp = s.sp := rfl
@[simp] theorem State.setI_dt (s : State) (a : Word) : (s.setI a).dt = s.dt := rfl
@[simp] theorem State.setI_st (s : State) (a : Word) : (s.setI a).st = s.st := rfl
@[simp] theorem State.setI_beep (s : State) (a : Word) : (s.setI a).beep = s.beep := rfl
@[simp] theorem State.setI_disp (s : State) (a : Word) : (s.setI a).disp = s.disp := rfl
@[simp] theorem State.setI_key (s : State) (a : Word) : (s.setI a).key = s.key := rfl
@[simp] theorem State.setI_draws (s : State) (a : Word) : (s.setI a).draws = s.draws := rfl
@[simp] theorem State.setI_reg (s : State) (a : Word) (q : Reg) : (s.setI a).reg q = s.reg q := rfl

/-! ## setDt -/

@[simp] theorem State.setDt_mem (s : State) (x : Byte) : (s.setDt x).mem = s.mem := rfl
@[simp] theorem State.setDt_v (s : State) (x : Byte) : (s.setDt x).v = s.v := rfl
@[simp] theorem State.setDt_pc (s : State) (x : Byte) : (s.setDt x).pc = s.pc := rfl
@[simp] theorem State.setDt_i (s : State) (x : Byte) : (s.setDt x).i = s.i := rfl
@[simp] theorem State.setDt_stack (s : State) (x : Byte) : (s.setDt x).stack = s.stack := rfl
@[simp] theorem State.setDt_sp (s : State) (x : Byte) : (s.setDt x).sp = s.sp := rfl
@[simp] theorem State.setDt_dt (s : State) (x : Byte) : (s.setDt x).dt = x := rfl
@[simp] theorem State.setDt_st (s : State) (x : Byte) : (s.setDt x).st = s.st := rfl
@[simp] theorem State.setDt_beep (s : State) (x : Byte) : (s.setDt x).beep = s.beep := rfl
@[simp] theorem State.setDt_disp (s : State) (x : Byte) : (s.setDt x).disp = s.disp := rfl
@[simp] theorem State.setDt_key (s : State) (x : Byte) : (s.setDt x).key = s.key := rfl
@[simp] theorem State.setDt_draws (s : State) (x : Byte) : (s.setDt x).draws = s.draws := rfl
@[simp] theorem State.setDt_reg (s : State) (x : Byte) (q : Reg) : (s.setDt x).reg q = s.reg q := rfl

/-! ## setSt -/

@[simp] theorem State.setSt_mem (s : State) (x : Byte) : (s.setSt x).mem = s.mem := rfl
@[simp] theorem State.setSt_v (s : State) (x : Byte) : (s.setSt x).v = s.v := rfl
@[simp] theorem State.setSt_pc (s : State) (x : Byte) : (s.setSt x).pc = s.pc := rfl
@[simp] theorem State.setSt_i (s : State) (x : Byte) : (s.setSt x).i = s.i := rfl
@[simp] theorem State.setSt_stack (s : State) (x : Byte) : (s.setSt x).stack = s.stack := rfl
@[simp] theorem State.setSt_sp (s : State) (x : Byte) : (s.setSt x).sp = s.sp := rfl
@[simp] theorem State.setSt_dt (s : State) (x : Byte) : (s.setSt x).dt = s.dt := rfl
@[simp] theorem State.setSt_st (s : State) (x : Byte) : (s.setSt x).st = x := rfl
@[simp] theorem State.setSt_beep (s : State) (x : Byte) : (s.setSt x).beep = s.beep := rfl
@[simp] theorem State.setSt_disp (s : State) (x : Byte) : (s.setSt x).disp = s.disp := rfl
@[simp] theorem State.setSt_key (s : State) (x : Byte) : (s.setSt x).key = s.key := rfl
@[simp] theorem State.setSt_draws (s : State) (x : Byte) : (s.setSt x).draws = s.draws := rfl
@[simp] theorem State.setSt_reg (s : State) (x : Byte) (q : Reg) : (s.setSt x).reg q = s.reg q := rfl

/-! ## setBeep -/

@[simp] theorem State.setBeep_mem (s : State) (b : Bool) : (s.setBeep b).mem = s.mem := rfl
@[simp] theorem State.setBeep_v (s : State) (b : Bool) : (s.setBeep b).v = s.v := rfl
@[simp] theorem State.setBeep_pc (s : State) (b : Bool) : (s.setBeep b).pc = s.pc := rfl
@[simp] theorem State.setBeep_i (s : State) (b : Bool) : (s.setBeep b).i = s.i := rfl
@[simp] theorem State.setBeep_stack (s : State) (b : Bool) : (s.setBeep b).stack = s.stack := rfl
@[simp] theorem State.setBeep_sp (s : State) (b : Bool) : (s.setBeep b).sp = s.sp := rfl
@[simp] theorem State.setBeep_dt (s : State) (b : Bool) : (s.setBeep b).dt = s.dt := rfl
@[simp] theorem State.setBeep_st (s : State) (b : Bool) : (s.setBeep b).st = s.st := rfl
@[simp] theorem State.setBeep_beep (s : State) (b : Bool) : (s.setBeep b).beep = b := rfl
@[simp] theorem State.setBeep_disp (s : State) (b : Bool) : (s.setBeep b).disp = s.disp := rfl
@[simp] theorem State.setBeep_key (s : State) (b : Bool) : (s.setBeep b).key = s.key := rfl
@[simp] theorem State.setBeep_draws (s : State) (b : Bool) : (s.setBeep b).draws = s.draws := rfl
@[simp] theorem State.setBeep_reg (s : State) (b : Bool) (q : Reg) : (s.setBeep b).reg q = s.reg q := rfl

/-! ## setDisp -/

@[simp] theorem State.setDisp_mem (s : State) (d : Display) : (s.setDisp d).mem = s.mem := rfl
@[simp] theorem State.setDisp_v (s : State) (d : Display) : (s.setDisp d).v = s.v := rfl
@[simp] theorem State.setDisp_pc (s : State) (d : Display) : (s.setDisp d).pc = s.pc := rfl
@[simp] theorem State.setDisp_i (s : State) (d : Display) : (s.setDisp d).i = s.i := rfl
@[simp] theorem State.setDisp_stack (s : State) (d : Display) : (s.setDisp d).stack = s.stack := rfl
@[simp] theorem State.setDisp_sp (s : State) (d : Display) : (s.setDisp d).sp = s.sp := rfl
@[simp] theorem State.setDisp_dt (s : State) (d : Display) : (s.setDisp d).dt = s.dt := rfl
@[simp] theorem State.setDisp_st (s : State) (d : Display) : (s.setDisp d).st = s.st := rfl
@[simp] theorem State.setDisp_beep (s : State) (d : Display) : (s.setDisp d).beep = s.beep := rfl
@[simp] theorem State.setDisp_disp (s : State) (d : Display) : (s.setDisp d).disp = d := rfl
@[simp] theorem State.setDisp_key (s : State) (d : Display) : (s.setDisp d).key = s.key := rfl
@[simp] theorem State.setDisp_draws (s : State) (d : Display) : (s.setDisp d).draws = s.draws := rfl
@[simp] theorem State.setDisp_reg (s : State) (d : Display) (q : Reg) : (s.setDisp d).reg q = s.reg q := rfl

/-! ## setMem -/

@[simp] theorem State.setMem_mem (s : State) (m : Memory) : (s.setMem m).mem = m := rfl
@[simp] theorem State.setMem_v (s : State) (m : Memory) : (s.setMem m).v = s.v := rfl
@[simp] theorem State.setMem_pc (s : State) (m : Memory) : (s.setMem m).pc = s.pc := rfl
@[simp] theorem State.setMem_i (s : State) (m : Memory) : (s.setMem m).i = s.i := rfl
@[simp] theorem State.setMem_stack (s : State) (m : Memory) : (s.setMem m).stack = s.stack := rfl
@[simp] theorem State.setMem_sp (s : State) (m : Memory) : (s.setMem m).sp = s.sp := rfl
@[simp] theorem State.setMem_dt (s : State) (m : Memory) : (s.setMem m).dt = s.dt := rfl
@[simp] theorem State.setMem_st (s : State) (m : Memory) : (s.setMem m).st = s.st := rfl
@[simp] theorem State.setMem_beep (s : State) (m : Memory) : (s.setMem m).beep = s.beep := rfl
@[simp] theorem State.setMem_disp (s : State) (m : Memory) : (s.setMem m).disp = s.disp := rfl
@[simp] theorem State.setMem_key (s : State) (m : Memory) : (s.setMem m).key = s.key := rfl
@[simp] theorem State.setMem_draws (s : State) (m : Memory) : (s.setMem m).draws = s.draws := rfl
@[simp] theorem State.setMem_reg (s : State) (m : Memory) (q : Reg) : (s.setMem m).reg q = s.reg q := rfl

/-! ## setKey -/

@[simp] theorem State.setKey_mem (s : State) (k : Reg) (b : Bool) : (s.setKey k b).mem = s.mem := rfl
@[simp] theorem State.setKey_v (s : State) (k : Reg) (b : Bool) : (s.setKey k b).v = s.v := rfl
@[simp] theorem State.setKey_pc (s : State) (k : Reg) (b : Bool) : (s.setKey k b).pc = s.pc := rfl
@[simp] theorem State.setKey_i (s : State) (k : Reg) (b : Bool) : (s.setKey k b).i = s.i := rfl
@[simp] theorem State.setKey_stack (s : State) (k : Reg) (b : Bool) : (s.setKey k b).stack = s.stack := rfl
@[simp] theorem State.setKey_sp (s : State) (k : Reg) (b : Bool) : (s.setKey k b).sp = s.sp := rfl
@[simp] theorem State.setKey_dt (s : State) (k : Reg) (b : Bool) : (s.setKey k b).dt = s.dt := rfl
@[simp] theorem State.setKey_st (s : State) (k : Reg) (b : Bool) : (s.setKey k b).st = s.st := rfl
@[simp] theorem State.setKey_beep (s : State) (k : Reg) (b : Bool) : (s.setKey k b).beep = s.beep := rfl
@[simp] theorem State.setKey_disp (s : State) (k : Reg) (b : Bool) : (s.setKey k b).disp = s.disp := rfl
@[simp] theorem State.setKey_key (s : State) (k : Reg) (b : Bool) : (s.setKey k b).key = s.key.set k b := rfl
@[simp] theorem State.setKey_draws (s : State) (k : Reg) (b : Bool) : (s.setKey k b).draws = s.draws := rfl
@[simp] theorem State.setKey_reg (s : State) (k : Reg) (b : Bool) (q : Reg) : (s.setKey k b).reg q = s.reg q := rfl

/-! ## setStack -/

@[simp] theorem State.setStack_mem (s : State) (k : Fin 16) (a : Word) : (s.setStack k a).mem = s.mem := rfl
@[simp] theorem State.setStack_v (s : State) (k : Fin 16) (a : Word) : (s.setStack k a).v = s.v := rfl
@[simp] theorem State.setStack_pc (s : State) (k : Fin 16) (a : Word) : (s.setStack k a).pc = s.pc := rfl
@[simp] theorem State.setStack_i (s : State) (k : Fin 16) (a : Word) : (s.setStack k a).i = s.i := rfl
@[simp] theorem State.setStack_stack (s : State) (k : Fin 16) (a : Word) : (s.setStack k a).stack = s.stack.set k a := rfl
@[simp] theorem State.setStack_sp (s : State) (k : Fin 16) (a : Word) : (s.setStack k a).sp = s.sp := rfl
@[simp] theorem State.setStack_dt (s : State) (k : Fin 16) (a : Word) : (s.setStack k a).dt = s.dt := rfl
@[simp] theorem State.setStack_st (s : State) (k : Fin 16) (a : Word) : (s.setStack k a).st = s.st := rfl
@[simp] theorem State.setStack_beep (s : State) (k : Fin 16) (a : Word) : (s.setStack k a).beep = s.beep := rfl
@[simp] theorem State.setStack_disp (s : State) (k : Fin 16) (a : Word) : (s.setStack k a).disp = s.disp := rfl
@[simp] theorem State.setStack_key (s : State) (k : Fin 16) (a : Word) : (s.setStack k a).key = s.key := rfl
@[simp] theorem State.setStack_draws (s : State) (k : Fin 16) (a : Word) : (s.setStack k a).draws = s.draws := rfl
@[simp] theorem State.setStack_reg (s : State) (k : Fin 16) (a : Word) (q : Reg) : (s.setStack k a).reg q = s.reg q := rfl

/-! ## setSp -/

@[simp] theorem State.setSp_mem (s : State) (n : Fin 17) : (s.setSp n).mem = s.mem := rfl
@[simp] theorem State.setSp_v (s : State) (n : Fin 17) : (s.setSp n).v = s.v := rfl
@[simp] theorem State.setSp_pc (s : State) (n : Fin 17) : (s.setSp n).pc = s.pc := rfl
@[simp] theorem State.setSp_i (s : State) (n : Fin 17) : (s.setSp n).i = s.i := rfl
@[simp] theorem State.setSp_stack (s : State) (n : Fin 17) : (s.setSp n).stack = s.stack := rfl
@[simp] theorem State.setSp_sp (s : State) (n : Fin 17) : (s.setSp n).sp = n := rfl
@[simp] theorem State.setSp_dt (s : State) (n : Fin 17) : (s.setSp n).dt = s.dt := rfl
@[simp] theorem State.setSp_st (s : State) (n : Fin 17) : (s.setSp n).st = s.st := rfl
@[simp] theorem State.setSp_beep (s : State) (n : Fin 17) : (s.setSp n).beep = s.beep := rfl
@[simp] theorem State.setSp_disp (s : State) (n : Fin 17) : (s.setSp n).disp = s.disp := rfl
@[simp] theorem State.setSp_key (s : State) (n : Fin 17) : (s.setSp n).key = s.key := rfl
@[simp] theorem State.setSp_draws (s : State) (n : Fin 17) : (s.setSp n).draws = s.draws := rfl
@[simp] theorem State.setSp_reg (s : State) (n : Fin 17) (q : Reg) : (s.setSp n).reg q = s.reg q := rfl

/-! ## nextDraw -/

@[simp] theorem State.nextDraw_mem (s : State) : (s.nextDraw).mem = s.mem := rfl
@[simp] theorem State.nextDraw_v (s : State) : (s.nextDraw).v = s.v := rfl
@[simp] theorem State.nextDraw_pc (s : State) : (s.nextDraw).pc = s.pc := rfl
@[simp] theorem State.nextDraw_i (s : State) : (s.nextDraw).i = s.i := rfl
@[simp] theorem State.nextDraw_stack (s : State) : (s.nextDraw).stack = s.stack := rfl
@[simp] theorem State.nextDraw_sp (s : State) : (s.nextDraw).sp = s.sp := rfl
@[simp] theorem State.nextDraw_dt (s : State) : (s.nextDraw).dt = s.dt := rfl
@[simp] theorem State.nextDraw_st (s : State) : (s.nextDraw).st = s.st := rfl
@[simp] theorem State.nextDraw_beep (s : State) : (s.nextDraw).beep = s.beep := rfl
@[simp] theorem State.nextDraw_disp (s : State) : (s.nextDraw).disp = s.disp := rfl
@[simp] theorem State.nextDraw_key (s : State) : (s.nextDraw).key = s.key := rfl
@[simp] theorem State.nextDraw_draws (s : State) : (s.nextDraw).draws = s.draws + 1 := rfl
@[simp] theorem State.nextDraw_reg (s : State) (q : Reg) : (s.nextDraw).reg q = s.reg q := rfl

/-! ## skip -/

@[simp] theorem State.skip_mem (s : State) : (s.skip).mem = s.mem := rfl
@[simp] theorem State.skip_v (s : State) : (s.skip).v = s.v := rfl
@[simp] theorem State.skip_pc (s : State) : (s.skip).pc = s.pc + 2 := rfl
@[simp] theorem State.skip_i (s : State) : (s.skip).i = s.i := rfl
@[simp] theorem State.skip_stack (s : State) : (s.skip).stack = s.stack := rfl
@[simp] theorem State.skip_sp (s : State) : (s.skip).sp = s.sp := rfl
@[simp] theorem State.skip_dt (s : State) : (s.skip).dt = s.dt := rfl
@[simp] theorem State.skip_st (s : State) : (s.skip).st = s.st := rfl
@[simp] theorem State.skip_beep (s : State) : (s.skip).beep = s.beep := rfl
@[simp] theorem State.skip_disp (s : State) : (s.skip).disp = s.disp := rfl
@[simp] theorem State.skip_key (s : State) : (s.skip).key = s.key := rfl
@[simp] theorem State.skip_draws (s : State) : (s.skip).draws = s.draws := rfl
@[simp] theorem State.skip_reg (s : State) (q : Reg) : (s.skip).reg q = s.reg q := rfl

/-! ## advanceIndex -/

@[simp] theorem State.advanceIndex_mem (s : State) (x : Reg) : (s.advanceIndex x).mem = s.mem := rfl
@[simp] theorem State.advanceIndex_v (s : State) (x : Reg) : (s.advanceIndex x).v = s.v := rfl
@[simp] theorem State.advanceIndex_pc (s : State) (x : Reg) : (s.advanceIndex x).pc = s.pc := rfl
@[simp] theorem State.advanceIndex_i (s : State) (x : Reg) : (s.advanceIndex x).i = s.i + BitVec.ofNat 16 (blockLength x) := rfl
@[simp] theorem State.advanceIndex_stack (s : State) (x : Reg) : (s.advanceIndex x).stack = s.stack := rfl
@[simp] theorem State.advanceIndex_sp (s : State) (x : Reg) : (s.advanceIndex x).sp = s.sp := rfl
@[simp] theorem State.advanceIndex_dt (s : State) (x : Reg) : (s.advanceIndex x).dt = s.dt := rfl
@[simp] theorem State.advanceIndex_st (s : State) (x : Reg) : (s.advanceIndex x).st = s.st := rfl
@[simp] theorem State.advanceIndex_beep (s : State) (x : Reg) : (s.advanceIndex x).beep = s.beep := rfl
@[simp] theorem State.advanceIndex_disp (s : State) (x : Reg) : (s.advanceIndex x).disp = s.disp := rfl
@[simp] theorem State.advanceIndex_key (s : State) (x : Reg) : (s.advanceIndex x).key = s.key := rfl
@[simp] theorem State.advanceIndex_draws (s : State) (x : Reg) : (s.advanceIndex x).draws = s.draws := rfl
@[simp] theorem State.advanceIndex_reg (s : State) (x : Reg) (q : Reg) : (s.advanceIndex x).reg q = s.reg q := rfl

/-! ## Registers -/

/-- A register reads back what was written to it, and every other register keeps its value (R11). -/
@[simp] theorem State.setReg_reg (s : State) (r q : Reg) (x : Byte) :
    (s.setReg r x).reg q = if q = r then x else s.reg q := by
  unfold State.setReg State.reg
  by_cases h : q = r
  · subst h; simp
  · have h' : r.val ≠ q.val := fun e => h (Fin.ext e.symm)
    simp [h, Vector.getElem_set_ne, h']

/-- LOAD's block write: the listed bytes in order, the registers past them unchanged (R125). -/
@[simp] theorem State.loadRegs_reg (s : State) (bytes : List Byte) (q : Reg) :
    (s.loadRegs bytes).reg q = (bytes[q.val]?).getD (s.reg q) := by
  simp [State.loadRegs, State.reg]

/-- STORE's registers: V[0] to V[f2] in order (R124). -/
theorem State.regsThrough_length (s : State) (x : Reg) : (s.regsThrough x).length = blockLength x := by
  have := x.isLt
  simp [State.regsThrough, blockLength]

theorem State.regsThrough_getElem (s : State) (x : Reg) (j : Nat) (h : j < (s.regsThrough x).length) :
    (s.regsThrough x)[j] = s.reg (Fin.ofNat 16 j) := by
  have hx := x.isLt
  have hj : j < 16 := by rw [State.regsThrough_length, blockLength] at h; omega
  simp [State.regsThrough, State.reg, Nat.mod_eq_of_lt hj]

end Sys2Proof.Machine
end

