-- ==== Sys2Proof/Laws/Ops.lean ====
section
/-! SUPPORT. What each shared operation can answer: attempt, push, pop, the fetch, the key reads and the choice of a
key, and what a STEP that answers a next state has done. -/

namespace Sys2Proof.Machine

/-! ## Answers -/

@[simp] theorem attempt_ok {α : Type} (a : α) (k : α → Result) : attempt (.ok a) k = k a := rfl
@[simp] theorem attempt_error {α : Type} (f : Fault) (k : α → Result) : attempt (.error f) k = .fault f := rfl

/-- A next state comes from a value and the continuation. -/
theorem attempt_next {α : Type} {r : Except Fault α} {k : α → Result} {t : State} (h : attempt r k = .next t) :
    ∃ a, r = .ok a ∧ k a = .next t := by
  cases r with
  | ok a => exact ⟨a, rfl, h⟩
  | error f => cases h

/-! ## The call stack -/

/-- Push below 16 entries stores at STACK[SP] and counts one more (R15). -/
theorem push_ok {s : State} {a : Word} (h : s.sp.val < 16) :
    push s a = .ok ((s.setStack ⟨s.sp.val, h⟩ a).setSp ⟨s.sp.val + 1, Nat.succ_lt_succ h⟩) := by
  simp [push, h]

theorem push_full {s : State} {a : Word} (h : s.sp.val = 16) : push s a = .error .stackOverflow := by
  simp [push, h]

/-- Pop on a non-empty stack counts one less and gives that entry (R15). -/
theorem pop_ok {s : State} {n : Nat} {hn : n + 1 < 17} (h : s.sp = ⟨n + 1, hn⟩) :
    pop s = .ok (s.stack[n]'(Nat.lt_of_succ_lt_succ hn), s.setSp ⟨n, Nat.lt_of_succ_lt hn⟩) := by
  unfold pop
  split
  · rename_i h0; rw [h0] at h; cases h
  · rename_i m hm e
    rw [e] at h
    cases h
    rfl

theorem pop_empty {s : State} (h : s.sp.val = 0) : pop s = .error .stackUnderflow := by
  unfold pop
  split
  · rfl
  · rename_i m hm e; rw [e] at h; cases h

/-! ## Fetch and STEP -/

/-- A fetch below 4095 gives the word at PC, high byte first, and PC plus 2 (R43). -/
theorem fetch_ok {s : State} (h : s.pc.toNat ≤ 4094) : fetch s = .ok (wordAtPc s, fetched s) := by
  have hb : (2 : Nat) = 0 ∨ s.pc.toNat + 2 ≤ 4096 := by omega
  have e : s.mem.readBytes s.pc.toNat 2 = [s.mem.read s.pc.toNat, s.mem.read (s.pc.toNat + 1)] := rfl
  simp only [fetch, memRead_ok hb, e]
  rfl

theorem fetch_error {s : State} (h : 4094 < s.pc.toNat) :
    fetch s = .error (.outOfBoundsAddress (max s.pc.toNat 4096)) := by
  have hb : ¬((2 : Nat) = 0 ∨ s.pc.toNat + 2 ≤ 4096) := by omega
  simp only [fetch, memRead_error hb]

/-- What a STEP that answers a next state has done: fetched below 4095, decoded an instruction, executed it. -/
theorem step_next {s t : State} (h : step s = .next t) :
    s.pc.toNat ≤ 4094 ∧ ∃ i, decode (wordAtPc s) = some i ∧ exec i (fetched s) = .next t := by
  by_cases hp : s.pc.toNat ≤ 4094
  · refine ⟨hp, ?_⟩
    rw [step, fetch_ok hp, attempt_ok] at h
    cases hd : decode (wordAtPc s) with
    | none => simp only [hd] at h; cases h
    | some i => simp only [hd] at h; exact ⟨i, rfl, h⟩
  · rw [step, fetch_error (by omega)] at h; cases h

/-- STEP(rnd) on RND masks the given byte (R111). -/
theorem stepWith_rnd {rnd imm : Byte} {x : Reg} {s : State} (hp : s.pc.toNat ≤ 4094)
    (hd : decode (wordAtPc s) = some (.rnd x imm)) : stepWith rnd s = .next (rndWith rnd x imm (fetched s)) := by
  rw [stepWith, fetch_ok hp, attempt_ok]
  simp only [hd]

/-- STEP(rnd) on every other instruction is exec of it (R24). -/
theorem stepWith_exec {rnd : Byte} {i : Instr} {s : State} (hp : s.pc.toNat ≤ 4094)
    (hd : decode (wordAtPc s) = some i) (hi : ∀ x imm, i ≠ .rnd x imm) : stepWith rnd s = exec i (fetched s) := by
  rw [stepWith, fetch_ok hp, attempt_ok]
  simp only [hd]

/-- STEP(rnd) on a word that no row has. -/
theorem stepWith_unknown {rnd : Byte} {s : State} (hp : s.pc.toNat ≤ 4094) (hd : decode (wordAtPc s) = none) :
    stepWith rnd s = .fault (.unknownOpcode (wordAtPc s)) := by
  rw [stepWith, fetch_ok hp, attempt_ok]
  simp only [hd]
  rfl

/-- STEP(rnd) with PC beyond the last word. -/
theorem stepWith_beyond {rnd : Byte} {s : State} (hp : 4094 < s.pc.toNat) :
    stepWith rnd s = .fault (.outOfBoundsAddress (max s.pc.toNat 4096)) := by
  rw [stepWith, fetch_error hp, attempt_error]

/-! ## The record after an operation -/

theorem recordAfter_next {op : Operation} {s t : State} (h : perform op s = .next t) : recordAfter op s = t := by
  simp only [recordAfter, h]

theorem recordAfter_fault {op : Operation} {s : State} {f : Fault} (h : perform op s = .fault f) :
    recordAfter op s = s := by
  simp only [recordAfter, h]

/-! ## The keys -/

theorem mem_pressedKeys {keys : Keys} {k : Reg} : k ∈ pressedKeys keys ↔ keys[k] = true := by
  simp [pressedKeys]

/-- The law of KEYPICK: with a key pressed, the picked key is pressed, whatever the choice (R143). -/
theorem keyPickWith_pressed {keys : Keys} (choice : Reg) (h : pressedKeys keys ≠ []) :
    keys[keyPickWith choice keys] = true := by
  rw [← mem_pressedKeys]
  unfold keyPickWith
  split
  · rename_i e; exact absurd e h
  · rename_i k e; simp [e]
  · rename_i k k' rest e
    split
    · rename_i hc; exact mem_pressedKeys.2 hc
    · simp [e]

/-- Nothing allowed is left out: every pressed key is the pick of some choice (R143). -/
theorem keyPickWith_complete {keys : Keys} {k : Reg} (h : keys[k] = true) : keyPickWith k keys = k := by
  have hk := mem_pressedKeys.2 h
  unfold keyPickWith
  split
  · rename_i e; rw [e] at hk; cases hk
  · rename_i k' e; rw [e] at hk; exact (List.mem_singleton.1 hk).symm
  · rw [if_pos h]

theorem pressedKeys_eq_nil {keys : Keys} : pressedKeys keys = [] ↔ ∀ k : Reg, keys[k] = false := by
  simp [pressedKeys, List.filter_eq_nil_iff]

end Sys2Proof.Machine
end

