-- ==== Sys2Proof/Laws/PerInstr.lean ====
section
/-! SUPPORT. Statements made per instruction: the word the encoder gives an instruction has the fixed bits of that
instruction's row of the opcode map (spec/30_encoding.md R64, R65). -/

namespace Sys2Proof.Laws

/-- Four set bits read as set. -/
theorem getLsbD_ones4 {i : Nat} (h : i < 4) : (0xF#4).getLsbD i = true := by
  interval_cases i <;> rfl

/-- Eight set bits read as set. -/
theorem getLsbD_ones8 {i : Nat} (h : i < 8) : (0xFF#8).getLsbD i = true := by
  interval_cases i <;> rfl

/-- A format A word under the mask 0xF000 is its opcode. -/
theorem wordA_masked (op : BitVec 4) (a : BitVec 12) : wordA op a &&& 0xF000 = wordA op 0 := by
  apply BitVec.eq_of_getLsbD_eq
  intro i hi
  have hk : (0xF000 : Word) = wordA 0xF#4 0 := by decide
  rw [hk, BitVec.getLsbD_and, getLsbD_wordA, getLsbD_wordA, getLsbD_wordA]
  by_cases h : i < 12
  · simp [h]
  · simp [h, getLsbD_ones4 (show i - 12 < 4 by omega)]

/-- A format XI word under the mask 0xF000 is its opcode. -/
theorem wordXI_masked (op : BitVec 4) (x : Reg) (m : Byte) : wordXI op x m &&& 0xF000 = wordA op 0 :=
  wordA_masked op _

/-- A format X word under the mask 0xF0FF is its opcode and low byte. -/
theorem wordX_masked (op : BitVec 4) (x : Reg) (m : Byte) : wordXI op x m &&& 0xF0FF = wordXI op 0 m := by
  apply BitVec.eq_of_getLsbD_eq
  intro i hi
  have hk : (0xF0FF : Word) = wordXI 0xF#4 0 0xFF#8 := by decide
  rw [hk, BitVec.getLsbD_and, getLsbD_wordXI, getLsbD_wordXI, getLsbD_wordXI]
  by_cases h8 : i < 8
  · simp [h8, getLsbD_ones8 h8]
  · by_cases h : i < 12
    · simp [h, h8, regNibble]
    · simp [h, h8, getLsbD_ones4 (show i - 12 < 4 by omega)]

/-- A format XY word under the mask 0xF00F is its opcode and last nibble. -/
theorem wordXY_masked (op : BitVec 4) (x y : Reg) (n : BitVec 4) :
    wordXYN op x y n &&& 0xF00F = wordXYN op 0 0 n := by
  apply BitVec.eq_of_getLsbD_eq
  intro i hi
  have hk : (0xF00F : Word) = wordXYN 0xF#4 0 0 0xF#4 := by decide
  rw [hk, BitVec.getLsbD_and, getLsbD_wordXYN, getLsbD_wordXYN, getLsbD_wordXYN]
  by_cases h4 : i < 4
  · simp [h4, getLsbD_ones4 h4]
  · by_cases h8 : i < 8
    · simp [h4, h8, regNibble]
    · by_cases h : i < 12
      · simp [h, h4, h8, regNibble]
      · simp [h, h4, h8, getLsbD_ones4 (show i - 12 < 4 by omega)]

/-- The row that an instruction names selects its word. -/
def EncodingMatchesRow.Statement (i : Instr) : Prop :=
  ∃ r, i.raw.opcodeRow = some r ∧ r.selects (encode i) = true

theorem EncodingMatchesRow.nop : Statement .nop :=
  ⟨_, rfl, by decide⟩

theorem EncodingMatchesRow.cls : Statement .cls :=
  ⟨_, rfl, by decide⟩

theorem EncodingMatchesRow.ret : Statement .ret :=
  ⟨_, rfl, by decide⟩

theorem EncodingMatchesRow.jmp (addr : BitVec 12) : Statement (.jmp addr) :=
  ⟨_, rfl, beq_iff_eq.2 ((wordA_masked _ addr).trans (by decide))⟩

theorem EncodingMatchesRow.call (addr : BitVec 12) : Statement (.call addr) :=
  ⟨_, rfl, beq_iff_eq.2 ((wordA_masked _ addr).trans (by decide))⟩

theorem EncodingMatchesRow.seImm (x : Reg) (imm : Byte) : Statement (.seImm x imm) :=
  ⟨_, rfl, beq_iff_eq.2 ((wordXI_masked _ x imm).trans (by decide))⟩

theorem EncodingMatchesRow.sneImm (x : Reg) (imm : Byte) : Statement (.sneImm x imm) :=
  ⟨_, rfl, beq_iff_eq.2 ((wordXI_masked _ x imm).trans (by decide))⟩

theorem EncodingMatchesRow.seReg (x y : Reg) : Statement (.seReg x y) :=
  ⟨_, rfl, beq_iff_eq.2 ((wordXY_masked _ x y _).trans (by decide))⟩

theorem EncodingMatchesRow.ldImm (x : Reg) (imm : Byte) : Statement (.ldImm x imm) :=
  ⟨_, rfl, beq_iff_eq.2 ((wordXI_masked _ x imm).trans (by decide))⟩

theorem EncodingMatchesRow.addImm (x : Reg) (imm : Byte) : Statement (.addImm x imm) :=
  ⟨_, rfl, beq_iff_eq.2 ((wordXI_masked _ x imm).trans (by decide))⟩

theorem EncodingMatchesRow.ldReg (x y : Reg) : Statement (.ldReg x y) :=
  ⟨_, rfl, beq_iff_eq.2 ((wordXY_masked _ x y _).trans (by decide))⟩

theorem EncodingMatchesRow.or (x y : Reg) : Statement (.or x y) :=
  ⟨_, rfl, beq_iff_eq.2 ((wordXY_masked _ x y _).trans (by decide))⟩

theorem EncodingMatchesRow.and (x y : Reg) : Statement (.and x y) :=
  ⟨_, rfl, beq_iff_eq.2 ((wordXY_masked _ x y _).trans (by decide))⟩

theorem EncodingMatchesRow.xor (x y : Reg) : Statement (.xor x y) :=
  ⟨_, rfl, beq_iff_eq.2 ((wordXY_masked _ x y _).trans (by decide))⟩

theorem EncodingMatchesRow.addReg (x y : Reg) : Statement (.addReg x y) :=
  ⟨_, rfl, beq_iff_eq.2 ((wordXY_masked _ x y _).trans (by decide))⟩

theorem EncodingMatchesRow.sub (x y : Reg) : Statement (.sub x y) :=
  ⟨_, rfl, beq_iff_eq.2 ((wordXY_masked _ x y _).trans (by decide))⟩

theorem EncodingMatchesRow.shr (x y : Reg) : Statement (.shr x y) :=
  ⟨_, rfl, beq_iff_eq.2 ((wordXY_masked _ x y _).trans (by decide))⟩

theorem EncodingMatchesRow.subn (x y : Reg) : Statement (.subn x y) :=
  ⟨_, rfl, beq_iff_eq.2 ((wordXY_masked _ x y _).trans (by decide))⟩

theorem EncodingMatchesRow.shl (x y : Reg) : Statement (.shl x y) :=
  ⟨_, rfl, beq_iff_eq.2 ((wordXY_masked _ x y _).trans (by decide))⟩

theorem EncodingMatchesRow.sneReg (x y : Reg) : Statement (.sneReg x y) :=
  ⟨_, rfl, beq_iff_eq.2 ((wordXY_masked _ x y _).trans (by decide))⟩

theorem EncodingMatchesRow.ldI (addr : BitVec 12) : Statement (.ldI addr) :=
  ⟨_, rfl, beq_iff_eq.2 ((wordA_masked _ addr).trans (by decide))⟩

theorem EncodingMatchesRow.jmpV0 (addr : BitVec 12) : Statement (.jmpV0 addr) :=
  ⟨_, rfl, beq_iff_eq.2 ((wordA_masked _ addr).trans (by decide))⟩

theorem EncodingMatchesRow.rnd (x : Reg) (imm : Byte) : Statement (.rnd x imm) :=
  ⟨_, rfl, beq_iff_eq.2 ((wordXI_masked _ x imm).trans (by decide))⟩

theorem EncodingMatchesRow.draw (x y : Reg) (n : Fin 16) : Statement (.draw x y n) :=
  ⟨_, rfl, beq_iff_eq.2 ((wordA_masked _ _).trans (by decide))⟩

theorem EncodingMatchesRow.skp (x : Reg) : Statement (.skp x) :=
  ⟨_, rfl, beq_iff_eq.2 ((wordX_masked _ x _).trans (by decide))⟩

theorem EncodingMatchesRow.sknp (x : Reg) : Statement (.sknp x) :=
  ⟨_, rfl, beq_iff_eq.2 ((wordX_masked _ x _).trans (by decide))⟩

theorem EncodingMatchesRow.ldVxDt (x : Reg) : Statement (.ldVxDt x) :=
  ⟨_, rfl, beq_iff_eq.2 ((wordX_masked _ x _).trans (by decide))⟩

theorem EncodingMatchesRow.ldVxKey (x : Reg) : Statement (.ldVxKey x) :=
  ⟨_, rfl, beq_iff_eq.2 ((wordX_masked _ x _).trans (by decide))⟩

theorem EncodingMatchesRow.ldDtVx (x : Reg) : Statement (.ldDtVx x) :=
  ⟨_, rfl, beq_iff_eq.2 ((wordX_masked _ x _).trans (by decide))⟩

theorem EncodingMatchesRow.ldStVx (x : Reg) : Statement (.ldStVx x) :=
  ⟨_, rfl, beq_iff_eq.2 ((wordX_masked _ x _).trans (by decide))⟩

theorem EncodingMatchesRow.addI (x : Reg) : Statement (.addI x) :=
  ⟨_, rfl, beq_iff_eq.2 ((wordX_masked _ x _).trans (by decide))⟩

theorem EncodingMatchesRow.ldIFont (x : Reg) : Statement (.ldIFont x) :=
  ⟨_, rfl, beq_iff_eq.2 ((wordX_masked _ x _).trans (by decide))⟩

theorem EncodingMatchesRow.bcd (x : Reg) : Statement (.bcd x) :=
  ⟨_, rfl, beq_iff_eq.2 ((wordX_masked _ x _).trans (by decide))⟩

theorem EncodingMatchesRow.store (x : Reg) : Statement (.store x) :=
  ⟨_, rfl, beq_iff_eq.2 ((wordX_masked _ x _).trans (by decide))⟩

theorem EncodingMatchesRow.load (x : Reg) : Statement (.load x) :=
  ⟨_, rfl, beq_iff_eq.2 ((wordX_masked _ x _).trans (by decide))⟩

end Sys2Proof.Laws
end

