-- ==== Sys2Proof/Machine/Assembly.lean ====
section
/-! DEFINITION. The assembler syntax of the spec's programs: the text of an instruction, the directives DW and DB, and
the bytes of a line (spec/30_encoding.md R72). A notation only: nothing of the machine reads it. -/

namespace Sys2Proof.Machine

/-- A line of a program: an instruction, a raw word or a raw byte (R72). -/
inductive Line where
  | instr (i : Instr)
  | dw (w : Word)
  | db (x : Byte)
  deriving DecidableEq, Repr

/-- The bytes a line stands for; words are big-endian (R45, R72). -/
def lineBytes : Line → List Byte
  | .instr i => encodeBytes i
  | .dw w => [highByte w, lowByte w]
  | .db x => [x]

/-! ## Reading -/

/-- The digits of both bases in the order of their values (R72). -/
def digits : List Char := "0123456789ABCDEF".toList

/-- The value of a digit is its place among the digits; letters count in either case (notes/assumptions/9). -/
def digitValue (c : Char) : Option Nat := digits.idxOf? c.toUpper

/-- The number that digits of a base spell, continuing from a value. -/
def digitsValue (base value : Nat) : List Char → Option Nat
  | [] => some value
  | c :: rest =>
    match digitValue c with
    | some d => if d < base then digitsValue base (value * base + d) rest else none
    | none => none

/-- A number in 0x hexadecimal or in decimal (R72). -/
def readNumber : List Char → Option Nat
  | [] => none
  | ['0', 'x'] => none
  | '0' :: 'x' :: rest => digitsValue 16 0 rest
  | cs => digitsValue 10 0 cs

/-- One hexadecimal digit as a register number (R72). -/
def readReg (c : Char) : Option Reg :=
  match digitValue c with
  | some d => if h : d < 16 then some ⟨d, h⟩ else none
  | none => none

/-- An operand as it is written (R72). -/
inductive Operand where
  | reg (r : Reg)
  | number (k : Nat)
  | index
  | delayTimer
  | soundTimer
  | key
  | font (r : Reg)
  | through (r : Reg)
  | v0Plus (k : Nat)
  deriving DecidableEq, Repr

/-- Read one operand. -/
def readOperand : List Char → Option Operand
  | ['I'] => some .index
  | ['D', 'T'] => some .delayTimer
  | ['S', 'T'] => some .soundTimer
  | ['K', 'E', 'Y'] => some .key
  | ['F', 'O', 'N', 'T', '(', 'V', d, ')'] => (readReg d).map .font
  | ['V', '0', '.', '.', 'V', d] => (readReg d).map .through
  | 'V' :: '0' :: '+' :: rest => (readNumber rest).map .v0Plus
  | ['V', d] => (readReg d).map .reg
  | cs => (readNumber cs).map .number

/-- The pieces between the occurrences of a character. -/
def splitAt (sep : Char) : List Char → List (List Char)
  | [] => [[]]
  | c :: rest =>
    if c = sep then [] :: splitAt sep rest
    else
      match splitAt sep rest with
      | [] => [[c]]
      | piece :: pieces => (c :: piece) :: pieces

/-- A number as an n-bit operand, if it fits (R72: imm 0 to 255, addr 0 to 4095). -/
def fits (n k : Nat) : Option (BitVec n) := if k < 2 ^ n then some (BitVec.ofNat n k) else none

/-- A number as a count 0 to 15 (R72). -/
def fitsCount (k : Nat) : Option (Fin 16) := if h : k < 16 then some ⟨k, h⟩ else none

/-- The line that a name and its operands spell; overloaded names are told apart by the shapes of the operands
(R72). -/
def lineOf : String → List Operand → Option Line
  | "NOP", [] => some (.instr .nop)
  | "CLS", [] => some (.instr .cls)
  | "RET", [] => some (.instr .ret)
  | "JMP", [.number k] => (fits 12 k).map fun a => .instr (.jmp a)
  | "JMP", [.v0Plus k] => (fits 12 k).map fun a => .instr (.jmpV0 a)
  | "CALL", [.number k] => (fits 12 k).map fun a => .instr (.call a)
  | "SE", [.reg x, .number k] => (fits 8 k).map fun m => .instr (.seImm x m)
  | "SE", [.reg x, .reg y] => some (.instr (.seReg x y))
  | "SNE", [.reg x, .number k] => (fits 8 k).map fun m => .instr (.sneImm x m)
  | "SNE", [.reg x, .reg y] => some (.instr (.sneReg x y))
  | "LD", [.reg x, .number k] => (fits 8 k).map fun m => .instr (.ldImm x m)
  | "LD", [.reg x, .reg y] => some (.instr (.ldReg x y))
  | "LD", [.reg x, .delayTimer] => some (.instr (.ldVxDt x))
  | "LD", [.reg x, .key] => some (.instr (.ldVxKey x))
  | "LD", [.delayTimer, .reg x] => some (.instr (.ldDtVx x))
  | "LD", [.soundTimer, .reg x] => some (.instr (.ldStVx x))
  | "LD", [.index, .number k] => (fits 12 k).map fun a => .instr (.ldI a)
  | "LD", [.index, .font x] => some (.instr (.ldIFont x))
  | "ADD", [.reg x, .number k] => (fits 8 k).map fun m => .instr (.addImm x m)
  | "ADD", [.reg x, .reg y] => some (.instr (.addReg x y))
  | "ADD", [.index, .reg x] => some (.instr (.addI x))
  | "OR", [.reg x, .reg y] => some (.instr (.or x y))
  | "AND", [.reg x, .reg y] => some (.instr (.and x y))
  | "XOR", [.reg x, .reg y] => some (.instr (.xor x y))
  | "SUB", [.reg x, .reg y] => some (.instr (.sub x y))
  | "SUBN", [.reg x, .reg y] => some (.instr (.subn x y))
  | "SHR", [.reg x] => some (.instr (.shr x 0))
  | "SHR", [.reg x, .reg y] => some (.instr (.shr x y))
  | "SHL", [.reg x] => some (.instr (.shl x 0))
  | "SHL", [.reg x, .reg y] => some (.instr (.shl x y))
  | "RND", [.reg x, .number k] => (fits 8 k).map fun m => .instr (.rnd x m)
  | "DRAW", [.reg x, .reg y, .number k] => (fitsCount k).map fun n => .instr (.draw x y n)
  | "SKP", [.reg x] => some (.instr (.skp x))
  | "SKNP", [.reg x] => some (.instr (.sknp x))
  | "BCD", [.reg x] => some (.instr (.bcd x))
  | "STORE", [.through x] => some (.instr (.store x))
  | "LOAD", [.through x] => some (.instr (.load x))
  | "DW", [.number k] => (fits 16 k).map .dw
  | "DB", [.number k] => (fits 8 k).map .db
  | _, _ => none

/-- Every piece read as an operand, or none. -/
def readOperands : List (List Char) → Option (List Operand)
  | [] => some []
  | piece :: rest =>
    match readOperand piece, readOperands rest with
    | some o, some os => some (o :: os)
    | _, _ => none

/-- Read one line: the name, a space, operands separated by commas (R72). -/
def readLine (text : String) : Option Line :=
  match splitAt ' ' text.toList with
  | [name] => lineOf (String.ofList name) []
  | [name, operands] => (readOperands (splitAt ',' operands)).bind (lineOf (String.ofList name))
  | _ => none

/-- The bytes of a program text, if every line can be read. -/
def assemble : List String → Option (List Byte)
  | [] => some []
  | text :: rest =>
    match readLine text, assemble rest with
    | some line, some bytes => some (lineBytes line ++ bytes)
    | _, _ => none

/-! ## Writing -/

/-- A hexadecimal digit. -/
def hexDigit (k : Nat) : String := String.ofList [digits.getD (k % 16) '0']

/-- A register as it is written (R72). -/
def regText (r : Reg) : String := "V" ++ hexDigit r.val

/-- A byte as two hexadecimal digits. -/
def byteText (x : Byte) : String := "0x" ++ hexDigit (x.toNat / 16) ++ hexDigit x.toNat

/-- A 12-bit address as three hexadecimal digits. -/
def addrText (a : BitVec 12) : String :=
  "0x" ++ hexDigit (a.toNat / 256) ++ hexDigit (a.toNat / 16) ++ hexDigit a.toNat

/-- A name with two register operands. -/
def twoRegs (name : String) (x y : Reg) : String := name ++ " " ++ regText x ++ "," ++ regText y

/-- The text of an instruction: the Name column of the opcode map with its operands (R65, R72). -/
def instrText : Instr → String
  | .nop => "NOP"
  | .cls => "CLS"
  | .ret => "RET"
  | .jmp a => "JMP " ++ addrText a
  | .call a => "CALL " ++ addrText a
  | .seImm x m => "SE " ++ regText x ++ "," ++ byteText m
  | .sneImm x m => "SNE " ++ regText x ++ "," ++ byteText m
  | .seReg x y => twoRegs "SE" x y
  | .ldImm x m => "LD " ++ regText x ++ "," ++ byteText m
  | .addImm x m => "ADD " ++ regText x ++ "," ++ byteText m
  | .ldReg x y => twoRegs "LD" x y
  | .or x y => twoRegs "OR" x y
  | .and x y => twoRegs "AND" x y
  | .xor x y => twoRegs "XOR" x y
  | .addReg x y => twoRegs "ADD" x y
  | .sub x y => twoRegs "SUB" x y
  | .shr x y => twoRegs "SHR" x y
  | .subn x y => twoRegs "SUBN" x y
  | .shl x y => twoRegs "SHL" x y
  | .sneReg x y => twoRegs "SNE" x y
  | .ldI a => "LD I," ++ addrText a
  | .jmpV0 a => "JMP V0+" ++ addrText a
  | .rnd x m => "RND " ++ regText x ++ "," ++ byteText m
  | .draw x y n => twoRegs "DRAW" x y ++ ",0x" ++ hexDigit n.val
  | .skp x => "SKP " ++ regText x
  | .sknp x => "SKNP " ++ regText x
  | .ldVxDt x => "LD " ++ regText x ++ ",DT"
  | .ldVxKey x => "LD " ++ regText x ++ ",KEY"
  | .ldDtVx x => "LD DT," ++ regText x
  | .ldStVx x => "LD ST," ++ regText x
  | .addI x => "ADD I," ++ regText x
  | .ldIFont x => "LD I,FONT(" ++ regText x ++ ")"
  | .bcd x => "BCD " ++ regText x
  | .store x => "STORE V0.." ++ regText x
  | .load x => "LOAD V0.." ++ regText x

end Sys2Proof.Machine
end

