-- ==== Sys2Proof/Tests/Slice0.lean ====
section
/-! SUPPORT. The model's own tests. Expected results are the vectors and programs of spec/95_test_vectors.md (named in
each comment) or are worked out by hand from the rule named; words are written out from the opcode map. -/

namespace Sys2Proof.Tests

open Sys2Proof.Machine

/-! ## Helpers -/

/-- One STEP with the word stored at PC. -/
def stepOn (w : Nat) (s : State) : Result := step (s.withFetchWord 16 w)

/-- The answer is a next state with this property. -/
def nextHas (r : Result) (p : State → Bool) : Bool :=
  match r with
  | .next t => p t
  | .fault _ => false
  | .refused _ => false

/-- The answer is this fault. -/
def faultIs (r : Result) (f : Fault) : Bool :=
  match r with
  | .next _ => false
  | .fault g => g == f
  | .refused _ => false

/-- The reset state with some registers set. -/
def regs (l : List (Reg × Byte)) : State := l.foldl (fun s p => s.setReg p.1 p.2) State.reset

/-- A state with bytes stored from an address on. -/
def bytesAt (a : Nat) (l : List Byte) (s : State) : State := s.setMem (s.mem.writeBytes a l)

/-! ## Decoding: words written out from the opcode map (R65), at least one per family -/

theorem test_decode_control :
    decodeTableWord 16 0x0000 = some .nop ∧ decodeTableWord 16 0x00EE = some .ret ∧
    decodeTableWord 16 0x1204 = some (.jmp 0x204) ∧ decodeTableWord 16 0x2210 = some (.call 0x210) ∧
    decodeTableWord 16 0x332A = some (.seImm 3 0x2A) ∧ decodeTableWord 16 0x4A42 = some (.sneImm 10 0x42) ∧
    decodeTableWord 16 0x5120 = some (.seReg 1 2) ∧ decodeTableWord 16 0x9AB0 = some (.sneReg 10 11) ∧
    decodeTableWord 16 0xB300 = some (.jmpV0 0x300) := by decide

theorem test_decode_alu :
    decodeTableWord 16 0x6A12 = some (.ldImm 10 0x12) ∧ decodeTableWord 16 0x71FF = some (.addImm 1 0xFF) ∧
    decodeTableWord 16 0x8120 = some (.ldReg 1 2) ∧ decodeTableWord 16 0x8121 = some (.or 1 2) ∧
    decodeTableWord 16 0x8122 = some (.and 1 2) ∧ decodeTableWord 16 0x8123 = some (.xor 1 2) ∧
    decodeTableWord 16 0x8014 = some (.addReg 0 1) ∧ decodeTableWord 16 0x8015 = some (.sub 0 1) ∧
    decodeTableWord 16 0x8106 = some (.shr 1 0) ∧ decodeTableWord 16 0x8017 = some (.subn 0 1) ∧
    decodeTableWord 16 0x812E = some (.shl 1 2) ∧ decodeTableWord 16 0xC30F = some (.rnd 3 0x0F) := by decide

theorem test_decode_index :
    decodeTableWord 16 0xA300 = some (.ldI 0x300) ∧ decodeTableWord 16 0xF21E = some (.addI 2) ∧
    decodeTableWord 16 0xF429 = some (.ldIFont 4) ∧ decodeTableWord 16 0xF033 = some (.bcd 0) ∧
    decodeTableWord 16 0xF355 = some (.store 3) ∧ decodeTableWord 16 0xF265 = some (.load 2) := by decide

theorem test_decode_display :
    decodeTableWord 16 0x00E0 = some .cls ∧ decodeTableWord 16 0xD012 = some (.draw 0 1 2) := by decide

theorem test_decode_keypad :
    decodeTableWord 16 0xE29E = some (.skp 2) ∧ decodeTableWord 16 0xE2A1 = some (.sknp 2) ∧
    decodeTableWord 16 0xF307 = some (.ldVxDt 3) ∧ decodeTableWord 16 0xF10A = some (.ldVxKey 1) ∧
    decodeTableWord 16 0xF015 = some (.ldDtVx 0) ∧ decodeTableWord 16 0xF018 = some (.ldStVx 0) := by decide

/-- TF6 to TF14: words of every group of R66. -/
theorem test_decode_unknown :
    [0x0123, 0x00E1, 0x00FE, 0x5AB1, 0x9AB1, 0x8128, 0x812F, 0xE29F, 0xF0FF].all
      (fun w => decodeTableWord 16 w == none) = true := by decide

theorem test_decodeBytes_rejects_by_name :
    decodeBytes [0x12] = .error (.truncated 1) ∧ decodeBytes [0x01, 0x23, 0x00] = .error (.unknownOpcode 0x0123) ∧
    decodeBytes [0x60, 0xFE, 0xA3] = .ok (.ldImm 0 0xFE, [0xA3]) := by decide

/-! ## Well-formedness: one ill-formed term for each check -/

theorem test_wellFormed_refuses_missing_row :
    RawInstr.rowExists ⟨0, []⟩ = false ∧ RawInstr.rowExists ⟨36, []⟩ = false := by decide

theorem test_wellFormed_refuses_operand_count :
    RawInstr.operandCountRight ⟨9, [3]⟩ = false ∧ RawInstr.operandCountRight ⟨1, [0]⟩ = false := by decide

theorem test_wellFormed_refuses_operand_range :
    RawInstr.operandsFit ⟨9, [16, 0]⟩ = false ∧ RawInstr.operandsFit ⟨9, [15, 256]⟩ = false ∧
    RawInstr.operandsFit ⟨4, [4096]⟩ = false ∧ RawInstr.operandsFit ⟨24, [0, 0, 16]⟩ = false := by decide

theorem test_wellFormed_accepts_boundary :
    RawInstr.wellFormed ⟨9, [15, 255]⟩ = true ∧ RawInstr.word ⟨9, [15, 255]⟩ = some 0x6FFF ∧
    RawInstr.word ⟨24, [0, 1, 2]⟩ = some 0xD012 := by decide

theorem test_wordWellFormed_refuses_unknown_words :
    [0x0001, 0x5AB1, 0x8128, 0x9AB1, 0xE29F, 0xF0FF].all (fun w => !wordWellFormed (BitVec.ofNat 16 w)) = true := by
  decide

/-! ## Fetch and faults -/

/-- TF1 to TF3. -/
theorem test_fetch_out_of_bounds :
    faultIs (step (State.reset.setPc 0xFFF)) (.outOfBoundsAddress 4096) ∧
    faultIs (step (State.reset.setPc 0x1000)) (.outOfBoundsAddress 4096) ∧
    faultIs (step (State.reset.setPc 0xFFFF)) (.outOfBoundsAddress 65535) := by decide

/-- TF4. -/
theorem test_fetch_at_4094 : nextHas (stepOn 0x3000 (State.reset.setPc 0xFFE)) (·.pc == 0x1002) := by decide

/-- TF5. -/
theorem test_fetch_odd_pc :
    nextHas (stepOn 0x6A12 (State.reset.setPc 0x201)) (fun t => t.reg 10 == 0x12 && t.pc == 0x203) := by decide

/-- TF6. -/
theorem test_unknown_opcode : faultIs (stepOn 0x0123 State.reset) (.unknownOpcode 0x0123) := by decide

/-! ## Control flow -/

/-- TC1. -/
theorem test_nop : nextHas (step State.reset) (fun t => t.pc == 0x202 && t == { State.reset with pc := 0x202 }) := by
  decide

/-- TC2, TC3. -/
theorem test_ret :
    nextHas (stepOn 0x00EE (((State.reset.setStack 0 0x206).setStack 1 0x30A).setSp 2))
      (fun t => t.pc == 0x30A && t.sp == 1 && t.stack[1] == 0x30A) ∧
    faultIs (stepOn 0x00EE State.reset) .stackUnderflow := by decide

/-- TC4. -/
theorem test_jmp : nextHas (stepOn 0x1ABC State.reset) (·.pc == 0xABC) := by decide

/-- TC7, TC8. -/
theorem test_call :
    nextHas (stepOn 0x2ABC ((State.reset.setPc 0x3FE).setSp 15))
      (fun t => t.pc == 0xABC && t.sp == 16 && t.stack[15] == 0x400) ∧
    faultIs (stepOn 0x2ABC (State.reset.setSp 16)) .stackOverflow := by decide

/-- TC10 to TC13. -/
theorem test_imm_skips :
    nextHas (stepOn 0x3A42 (regs [(10, 0x42)])) (·.pc == 0x204) ∧
    nextHas (stepOn 0x3A42 (regs [(10, 0x43)])) (·.pc == 0x202) ∧
    nextHas (stepOn 0x4A42 (regs [(10, 0x43)])) (·.pc == 0x204) ∧
    nextHas (stepOn 0x4A42 (regs [(10, 0x42)])) (·.pc == 0x202) := by decide

/-- TC14 to TC18. -/
theorem test_reg_skips :
    nextHas (stepOn 0x5AB0 (regs [(10, 9), (11, 9)])) (·.pc == 0x204) ∧
    nextHas (stepOn 0x5AB0 (regs [(10, 9), (11, 8)])) (·.pc == 0x202) ∧
    nextHas (stepOn 0x9AB0 (regs [(10, 9), (11, 8)])) (·.pc == 0x204) ∧
    nextHas (stepOn 0x9AB0 (regs [(10, 9), (11, 9)])) (·.pc == 0x202) := by decide

/-- TC19, TC20. -/
theorem test_jmpV0 :
    nextHas (stepOn 0xB300 (regs [(0, 4), (3, 7)])) (·.pc == 0x304) ∧
    nextHas (stepOn 0xBFFF (regs [(0, 0xFF)])) (·.pc == 0x10FE) := by decide

/-! ## Registers, arithmetic, logic, shifts, random -/

/-- S1. -/
theorem test_ldImm :
    nextHas (stepOn 0x6A12 State.reset) (fun t => t.reg 10 == 0x12 && t.reg 2 == 0 && t.pc == 0x202) := by decide

/-- TA2, TA3. -/
theorem test_addImm :
    nextHas (stepOn 0x7105 (regs [(1, 0xFE), (15, 7)])) (fun t => t.reg 1 == 0x03 && t.reg 15 == 7) ∧
    nextHas (stepOn 0x71FF (regs [(1, 5)])) (fun t => t.reg 1 == 4) := by decide

/-- TA5. -/
theorem test_ldReg :
    nextHas (stepOn 0x8120 (regs [(2, 0x33)])) (fun t => t.reg 1 == 0x33 && t.reg 2 == 0x33) := by decide

/-- TA6 to TA8. -/
theorem test_logic :
    nextHas (stepOn 0x8121 (regs [(1, 0xF0), (2, 0x0F), (15, 1)])) (fun t => t.reg 1 == 0xFF && t.reg 15 == 1) ∧
    nextHas (stepOn 0x8122 (regs [(1, 0xF0), (2, 0x3C), (15, 1)])) (fun t => t.reg 1 == 0x30 && t.reg 15 == 1) ∧
    nextHas (stepOn 0x8123 (regs [(1, 0xF0), (2, 0x3C), (15, 1)])) (fun t => t.reg 1 == 0xCC && t.reg 15 == 1) := by
  decide

/-- TA10, TA11, TA13, TA15. -/
theorem test_addReg :
    nextHas (stepOn 0x8014 (regs [(0, 0xFF), (1, 0), (15, 1)])) (fun t => t.reg 0 == 0xFF && t.reg 15 == 0) ∧
    nextHas (stepOn 0x8014 (regs [(0, 0xFF), (1, 1)])) (fun t => t.reg 0 == 0 && t.reg 15 == 1) ∧
    nextHas (stepOn 0x8F14 (regs [(15, 0xF0), (1, 0x20)])) (fun t => t.reg 15 == 1) ∧
    nextHas (stepOn 0x81F4 (regs [(1, 0xFF), (15, 1)])) (fun t => t.reg 1 == 0 && t.reg 15 == 1) := by decide

/-- TA16 to TA18, TA20. -/
theorem test_sub :
    nextHas (stepOn 0x8015 (regs [(0, 0x0A), (1, 5)])) (fun t => t.reg 0 == 5 && t.reg 15 == 1) ∧
    nextHas (stepOn 0x8015 (regs [(0, 5), (1, 0x0A), (15, 1)])) (fun t => t.reg 0 == 0xFB && t.reg 15 == 0) ∧
    nextHas (stepOn 0x8015 (regs [(0, 7), (1, 7)])) (fun t => t.reg 0 == 0 && t.reg 15 == 1) ∧
    nextHas (stepOn 0x8F15 (regs [(15, 1), (1, 2)])) (fun t => t.reg 15 == 0) := by decide

/-- S4, TA26, TA27. -/
theorem test_subn :
    nextHas (stepOn 0x8017 (regs [(0, 5), (1, 0x0A)])) (fun t => t.reg 0 == 5 && t.reg 15 == 1) ∧
    nextHas (stepOn 0x8017 (regs [(0, 0x0A), (1, 5), (15, 1)])) (fun t => t.reg 0 == 0xFB && t.reg 15 == 0) ∧
    nextHas (stepOn 0x8017 (regs [(0, 0x0A), (1, 0x0A)])) (fun t => t.reg 0 == 0 && t.reg 15 == 1) := by decide

/-- TA23, TA24. -/
theorem test_shr :
    nextHas (stepOn 0x8126 (regs [(1, 0xFE), (2, 1), (15, 1)])) (fun t => t.reg 1 == 0x7F && t.reg 15 == 0) ∧
    nextHas (stepOn 0x8F06 (regs [(15, 7)])) (fun t => t.reg 15 == 3) := by decide

/-- TA29, TA30. -/
theorem test_shl :
    nextHas (stepOn 0x812E (regs [(1, 0x7F), (2, 0xFF), (15, 1)])) (fun t => t.reg 1 == 0xFE && t.reg 15 == 0) ∧
    nextHas (stepOn 0x8F0E (regs [(15, 0x81)])) (fun t => t.reg 15 == 2) := by decide

/-- TA31, TA32: the step's input rnd is the operation's. -/
theorem test_rnd :
    nextHas (perform (.step 0xA7) (State.reset.withFetchWord 16 0xC30F)) (fun t => t.reg 3 == 7 && t.pc == 0x202) ∧
    nextHas (perform (.step 0xFF) ((regs [(3, 9)]).withFetchWord 16 0xC300)) (fun t => t.reg 3 == 0) := by decide

/-- RND in step counts its draw and moves on (R111). -/
theorem test_rnd_draws :
    nextHas (stepOn 0xC30F State.reset) (fun t => t.draws == 1 && t.pc == 0x202 && t.reg 2 == 0) := by decide

/-! ## Index register and memory -/

/-- TM1 to TM6. -/
theorem test_index :
    nextHas (stepOn 0xAFFF State.reset) (·.i == 0x0FFF) ∧
    nextHas (stepOn 0xF21E ((regs [(2, 1), (15, 7)]).setI 0xFFF)) (fun t => t.i == 0x1000 && t.reg 15 == 7) ∧
    nextHas (stepOn 0xF21E ((regs [(2, 2)]).setI 0xFFFF)) (·.i == 1) ∧
    nextHas (stepOn 0xF429 (regs [(4, 0x1A)])) (·.i == 0x82) ∧
    nextHas (stepOn 0xF429 (regs [(4, 0xFF)])) (·.i == 0x4FB) := by decide

/-- TM14, TM17. -/
theorem test_bcd :
    nextHas (stepOn 0xF033 ((regs [(0, 254)]).setI 0x300)) (fun t => t.mem.readBytes 0x300 3 == [2, 5, 4] && t.i == 0x300) ∧
    nextHas (stepOn 0xF033 ((regs [(0, 255)]).setI 0xFFD)) (fun t => t.mem.readBytes 0xFFD 3 == [2, 5, 5]) := by decide

/-- TM18, TM19. -/
theorem test_bcd_faults :
    faultIs (stepOn 0xF033 ((regs [(0, 255)]).setI 0xFFE)) (.outOfBoundsAddress 4096) ∧
    faultIs (stepOn 0xF033 ((regs [(0, 255)]).setI 0x1234)) (.outOfBoundsAddress 4660) := by decide

/-- S10 and TM7; TM8, TM9. -/
theorem test_store :
    nextHas (stepOn 0xF355 ((regs [(0, 0x11), (1, 0x22), (2, 0x33), (3, 0x44), (4, 0x55)]).setI 0x300))
      (fun t => t.mem.readBytes 0x300 5 == [0x11, 0x22, 0x33, 0x44, 0] && t.i == 0x304) ∧
    nextHas (stepOn 0xF055 ((regs [(0, 0x11)]).setI 0xFFF)) (fun t => t.mem.read 0xFFF == 0x11 && t.i == 0x1000) ∧
    faultIs (stepOn 0xF155 ((regs [(0, 0x11), (1, 0x22)]).setI 0xFFF)) (.outOfBoundsAddress 4096) := by decide

/-- TM11, TM12. -/
theorem test_load :
    nextHas (stepOn 0xF265 (bytesAt 0x300 [2, 5, 4, 9] ((regs [(3, 0x77)]).setI 0x300)))
      (fun t => t.reg 0 == 2 && t.reg 1 == 5 && t.reg 2 == 4 && t.reg 3 == 0x77 && t.i == 0x303) ∧
    faultIs (stepOn 0xF265 ((regs [(0, 1)]).setI 0xFFE)) (.outOfBoundsAddress 4096) := by decide

/-- Writing back what RESET put at an address takes the entry out: equal memories are equal data. -/
theorem test_memory_canonical :
    Memory.write (Memory.write (Memory.write [] 0x300 7) 0x200 1) 0x300 0 = [(0x200, 1)] := by decide

/-! ## Display -/

/-- TD1. -/
theorem test_cls :
    nextHas (stepOn 0x00E0 (State.reset.setDisp (State.reset.disp.toggle (63, 31)))) (·.disp == Display.blank) := by
  decide

/-- TD2: the sprite wraps at both edges; pixels 2046, 2047, 62 and 5 are on. -/
theorem test_draw_wraps :
    nextHas (stepOn 0xD012 (bytesAt 0x20C [0xC0, 0x81] ((regs [(0, 62), (1, 31), (15, 1)]).setI 0x20C)))
      (fun t => t.disp == ((((State.reset.disp.toggle (pixelAt 2046)).toggle (pixelAt 2047)).toggle (pixelAt 62)).toggle
        (pixelAt 5)) && t.reg 15 == 0) := by decide

/-- TD3, TD7: a collision; a sprite beyond the end of memory. -/
theorem test_draw_collision :
    nextHas (stepOn 0xD011 (bytesAt 0x300 [0xF0]
        ((State.reset.setDisp ((State.reset.disp.toggle (1, 0)).toggle (8, 0))).setI 0x300)))
      (fun t => t.disp == ((((State.reset.disp.toggle (0, 0)).toggle (2, 0)).toggle (3, 0)).toggle (8, 0)) &&
        t.reg 15 == 1) ∧
    faultIs (stepOn 0xD012 (State.reset.setI 0xFFF)) (.outOfBoundsAddress 4096) := by decide

/-! ## Keypad and timers -/

/-- TK1, TK3. -/
theorem test_skp :
    nextHas (stepOn 0xE29E ((regs [(2, 7)]).setKey 7 true)) (·.pc == 0x204) ∧
    faultIs (stepOn 0xE29E (regs [(2, 16)])) (.invalidKeyIndex 16) := by decide

/-- TK5, TK6. -/
theorem test_sknp :
    nextHas (stepOn 0xE2A1 ((regs [(2, 7)]).setKey 7 true)) (·.pc == 0x202) ∧
    faultIs (stepOn 0xE2A1 (regs [(2, 0xFF)])) (.invalidKeyIndex 255) := by decide

/-- TK8: the waiting step leaves the whole state. -/
theorem test_key_wait :
    let s := ((regs [(1, 0x55)]).setPc 0x204).withFetchWord 16 0xF10A
    nextHas (step s) (· == s) := by decide

/-- TK9. -/
theorem test_key_pressed :
    nextHas (stepOn 0xF10A (((regs [(1, 0x55)]).setPc 0x204).setKey 7 true))
      (fun t => t.reg 1 == 7 && t.pc == 0x206 && t.key[7]) := by decide

/-- TK7, TK11, TK12. -/
theorem test_timer_moves :
    nextHas (stepOn 0xF307 (State.reset.setDt 0x2C)) (fun t => t.reg 3 == 0x2C && t.dt == 0x2C) ∧
    nextHas (stepOn 0xF015 (regs [(0, 0x3C)])) (·.dt == 60) ∧
    nextHas (stepOn 0xF018 (regs [(0, 3)])) (fun t => t.st == 3 && !t.beep) := by decide

/-- TK13 to TK15. -/
theorem test_tick :
    (tick (State.reset.setBeep true)).beep = false ∧ (tick (State.reset.setDt 5)).dt = 4 ∧
    (tick (State.reset.setSt 2)).beep = true ∧ (tick (tick (State.reset.setSt 2))).st = 0 ∧
    (tick (tick (State.reset.setSt 2))).beep = true ∧ (tick (tick (tick (State.reset.setSt 2)))).beep = false := by
  decide

/-- TK16 to TK18. -/
theorem test_setKey :
    faultIs (perform (.setKey 16 true) State.reset) (.invalidKeyIndex 16) ∧
    faultIs (perform (.setKey (-1) true) State.reset) (.invalidKeyIndex (-1)) ∧
    nextHas (perform (.setKey 15 true) State.reset) (fun t => t.key[15] && !t.key[14]) := by decide

/-- TL5: a shorter image leaves the rest of an earlier one. -/
theorem test_load_operation :
    nextHas (performAll [.load [0xAA, 0xBB, 0xCC, 0xDD], .load [0x11, 0x22]] State.reset)
      (fun t => t.mem.readBytes 0x200 4 == [0x11, 0x22, 0xCC, 0xDD] && t.pc == 0x200) := by decide

/-- TL6. -/
theorem test_reset_operation :
    nextHas (perform .reset (bytesAt 0x200 [1, 2, 3] (regs [(3, 9)]))) (· == State.reset) := by decide

/-! ## The assembler notation: the listings of programs P1, P3 and P5 give the bytes printed beside them -/

theorem test_assemble_P1 :
    assemble ["LD V0,0x00", "LD V1,0x05", "ADD V0,V1", "ADD V1,0xFF", "SE V1,0x00", "JMP 0x204", "JMP 0x20C"] =
      some [0x60, 0x00, 0x61, 0x05, 0x80, 0x14, 0x71, 0xFF, 0x31, 0x00, 0x12, 0x04, 0x12, 0x0C] := by decide +kernel

theorem test_assemble_P3 :
    assemble ["LD I,0x20C", "LD V0,0x3E", "LD V1,0x1F", "DRAW V0,V1,2", "DRAW V0,V1,2", "JMP 0x20A", "DW 0xC081"] =
      some [0xA2, 0x0C, 0x60, 0x3E, 0x61, 0x1F, 0xD0, 0x12, 0xD0, 0x12, 0x12, 0x0A, 0xC0, 0x81] := by decide +kernel

theorem test_assemble_P5 :
    assemble ["LD V0,0x03", "LD ST,V0", "LD V1,KEY", "LD DT,V0", "LD V2,DT", "JMP 0x20A"] =
      some [0x60, 0x03, 0xF0, 0x18, 0xF1, 0x0A, 0xF0, 0x15, 0xF2, 0x07, 0x12, 0x0A] := by decide +kernel

theorem test_text_reads_back :
    [Instr.jmpV0 0x300, .store 3, .ldIFont 3, .shr 1 2, .draw 0 1 15, .rnd 3 0x0F].all
      (fun i => readLine (instrText i) == some (.instr i)) = true := by decide +kernel

theorem test_readLine_refuses :
    readLine "LD V0,256" = none ∧ readLine "JMP 0x1000" = none ∧ readLine "DRAW V0,V1,16" = none ∧
    readLine "SHR V3" = some (.instr (.shr 3 0)) ∧ readLine "DB 255" = some (.db 255) := by decide +kernel

/-! ## Witnesses: concrete states and operands that meet the hypotheses of the statements of
Certificates/Slice0/Obligations.lean, clause by clause, at the boundary values -/

/-- The answer is a next state. -/
def isNext (r : Result) : Bool := nextHas r fun _ => true

/-- The state whose PC is at this address. -/
def atPc (a : Word) : State := State.reset.setPc a

theorem witness_DecodeSelectsTheOneMatchingRow :
    decode 0x8F06 = some (.shr 15 0) ∧ (⟨"SHR", .xy, 0x8006⟩ : OpcodeRow) ∈ opcodeMap ∧
    OpcodeRow.selects ⟨"SHR", .xy, 0x8006⟩ 0x8F06 = true ∧
    wordWellFormed (wordAtPc (State.reset.withFetchWord 16 0x8128)) = false := by decide

theorem witness_FetchReadsTheBigEndianWordAtPc :
    (atPc 4094).pc.toNat ≤ 4094 ∧ (atPc 4095).pc.toNat = 4095 ∧ 4096 ≤ (atPc 4096).pc.toNat := by decide

theorem witness_StepRunsTheDecodedInstruction :
    (atPc 4094).pc.toNat ≤ 4094 ∧
    decode (wordOfBytes ((atPc 4094).mem.read (atPc 4094).pc.toNat) ((atPc 4094).mem.read ((atPc 4094).pc.toNat + 1))) =
      some .nop := by decide

theorem witness_ExecFaultsExactlyByTheTable :
    execFault (.draw 0 1 15) (State.reset.setI 4081) = none ∧
    execFault (.draw 0 1 15) (State.reset.setI 4082) = some (.outOfBoundsAddress 4096) ∧
    execFault (.bcd 0) (State.reset.setI 4093) = none ∧ execFault (.store 15) (State.reset.setI 4080) = none ∧
    execFault (.call 0x300) (State.reset.setSp 15) = none ∧ execFault .ret (State.reset.setSp 1) = none ∧
    execFault (.skp 2) (regs [(2, 15)]) = none := by decide

theorem witness_StepFaultsExactlyByStage :
    stepFault (atPc 4095) = some (.outOfBoundsAddress 4096) ∧
    stepFault (State.reset.withFetchWord 16 0x0123) = some (.unknownOpcode 0x0123) ∧
    stepFault (State.reset.withFetchWord 16 0x00EE) = some .stackUnderflow ∧ stepFault (atPc 4094) = none := by decide

theorem witness_RetPopsThePc :
    (State.reset.setSp 16).sp.val = 15 + 1 ∧ (State.reset.setSp 1).sp.val = 0 + 1 ∧ State.reset.sp.val = 0 := by decide

theorem witness_CallPushesTheReturnAddress :
    (State.reset.setSp 15).sp.val < 16 ∧ State.reset.sp.val < 16 ∧ (State.reset.setSp 16).sp.val = 16 := by decide

/-- With the witness of the premise, a state that keeps the stack of the one after the call: that state itself. -/
theorem witness_CallThenRetReturnsAfterTheCall :
    State.reset.sp.val < 16 ∧
    nextHas (exec (.call 0x300) (fetched State.reset)) (fun t => t.sp == 1 && t.stack[0] == 0x202) = true := by decide

theorem witness_FinishedIsAFixedPoint : Finished (State.reset.withFetchWord 16 0x1200) :=
  ⟨by decide, 0x200, by decide, by decide⟩

/-- The registers other than VF, and a register other than the destination. -/
theorem witness_register_premises : (14 : Reg) ≠ 15 ∧ (0 : Reg) ≠ 14 ∧ (0 : Reg) ≠ 15 := by decide

theorem witness_RndMasksTheStepInput :
    (State.reset.withFetchWord 16 0xC30F).pc.toNat ≤ 4094 ∧
    decode (wordAtPc (State.reset.withFetchWord 16 0xC30F)) = some (.rnd 3 0x0F) := by decide

theorem witness_RndTakesTheNextDraw : BitVec.getLsbD (0x0F : Byte) 4 = false := by decide

theorem witness_StepIsStepWithTheNextDraw :
    isNext (stepOn 0xC30F State.reset) ∧ isNext (step State.reset) ∧
    faultIs (step (atPc 4095)) (.outOfBoundsAddress 4096) ∧ decode (wordAtPc State.reset) = some .nop := by decide

theorem witness_LaterWriteWinsInVf : (State.reset.setI 4080).indexAddress + 15 ≤ 4095 := by decide

theorem witness_BcdStoresThreeDigits :
    (State.reset.setI 4093).indexAddress + 2 ≤ 4095 ∧ (State.reset.setI 4094).indexAddress = 4094 ∧
    (State.reset.setI 4095).indexAddress = 4095 ∧ 4096 ≤ (State.reset.setI 4096).indexAddress := by decide

theorem witness_block_premises :
    (State.reset.setI 4080).indexAddress + (15 : Reg).val ≤ 4095 ∧
    4095 < (State.reset.setI 4081).indexAddress + (15 : Reg).val ∧
    4095 < (State.reset.setI 0xFFFF).indexAddress + (0 : Reg).val := by decide

theorem witness_StoreThenLoadRestoresTheRegisters : isNext (exec (.store 15) (State.reset.setI 4080)) = true := by decide

theorem witness_AccessesAreCheckedWhole :
    (0 < 1 ∧ 4096 < 4096 + 1) ∧ (0 < 2 ∧ 4096 < 4095 + 2) ∧ 4095 + 1 ≤ 4096 ∧
    (0 < [(1 : Byte), 2].length ∧ 4096 < 4095 + [(1 : Byte), 2].length) ∧ 4094 + [(1 : Byte), 2].length ≤ 4096 := by
  decide

/-- PC at the first of two stored bytes. -/
theorem witness_FetchSeesEarlierStores :
    nextHas (exec (.store 1) ((regs [(0, 0x12), (1, 0x08)]).setI 0x200))
      (fun t => (((regs []).setI 0x200).indexAddress + (0 : Reg).val == t.pc.toNat) && decide ((0 : Reg).val + 1 ≤ (1 : Reg).val)) =
      true := by decide

theorem witness_CanonicalMemoriesThatReadAlikeAreEqual : Memory.wf [(0x200, 1), (4095, 2)] := by decide

theorem witness_DrawXorsTheSprite :
    ((0 : Fin 16).val = 0 ∧ (State.reset.setI 0xFFFF).indexAddress = 65535) ∧
    (State.reset.setI 4081).indexAddress + (15 : Fin 16).val - 1 ≤ 4095 ∧
    (1 ≤ (15 : Fin 16).val ∧ 4095 < (State.reset.setI 4082).indexAddress + (15 : Fin 16).val - 1) := by decide

/-- TD3: the pixel (1, 0) is set and covered, so both VF clauses and both pixel clauses have a witness. -/
theorem witness_SpriteCovers :
    SpriteCovers (bytesAt 0x300 [0xF0] (State.reset.setI 0x300)) 0 0 1 (1, 0) ∧
    ((State.reset.disp.toggle (1, 0)).lit (1, 0) = true) := by
  refine ⟨⟨0, 1, by decide, by decide, by decide, by decide, by decide⟩, by decide⟩

theorem witness_DrawTogglesNoPixelTwice : (List.replicate 15 (0xFF : Byte)).length ≤ 15 := by decide

theorem witness_DrawingTwiceRestoresTheDisplay :
    (0 : Reg) ≠ 15 ∧ (1 : Reg) ≠ 15 ∧
    isNext (exec (.draw 0 1 1) (bytesAt 0x300 [0x80] (State.reset.setI 0x300))) ∧
    (bytesAt 0x300 [0x80] (State.reset.setI 0x300)).disp = Display.blank := by decide

theorem witness_DisplayIsRowMajor : (63 : Fin 64).val + 64 * (31 : Fin 32).val < 2048 := by decide

theorem witness_KeySkipsTestTheNumberedKey :
    ((regs [(2, 15)]).reg 2).toNat = (15 : Fin 16).val ∧ 16 ≤ ((regs [(2, 16)]).reg 2).toNat := by decide

theorem witness_LdVxKeyReportsAPressedKey :
    (∀ k : Fin 16, State.reset.key[k] = false) ∧
    ((State.reset.setKey 3 true).setKey 9 true).key[(9 : Fin 16)] = true := by decide

theorem witness_KeyWaitLeavesTheWholeState :
    (State.reset.withFetchWord 16 0xF10A).pc.toNat ≤ 4094 ∧
    decode (wordAtPc (State.reset.withFetchWord 16 0xF10A)) = some (.ldVxKey 1) ∧
    (∀ k : Fin 16, (State.reset.withFetchWord 16 0xF10A).key[k] = false) := by decide

theorem witness_BeepLastsExactlyTheSoundTimer :
    nextHas (exec (.ldStVx 0) (regs [(0, 3)])) (·.st == 3) = true := by decide

theorem witness_SetKeyWritesOneFlag :
    ((0 : Int) ≤ 0 ∧ (0 : Int) ≤ 15) ∧ ((0 : Int) ≤ 15 ∧ (15 : Int) ≤ 15) ∧ (-1 : Int) < 0 ∧ (15 : Int) < 16 := by decide

theorem witness_LoadCopiesTheImage :
    (List.replicate 3584 (0 : Byte)).length ≤ 3584 ∧ 3584 < (List.replicate 3585 (0 : Byte)).length := by
  simp only [List.length_replicate]; decide

/-- A STEP that faults with operations of each kind in between, one of them faulting; a PC that a LOAD can mend at both
ends of its range, and one that none can. -/
theorem witness_OnlyLoadAndResetEndAFault :
    faultIs (perform (.step 7) (State.reset.withFetchWord 16 0x00EE)) .stackUnderflow ∧
    (∀ op ∈ [Operation.step 3, .tick, .setKey 16 true, .setKey 15 true], op.canEndFault = false) ∧
    0x200 ≤ (atPc 0x200).pc.toNat ∧ (atPc 0x200).pc.toNat ≤ 4094 ∧ (atPc 4094).pc.toNat ≤ 4094 ∧
    4095 ≤ (atPc 4095).pc.toNat ∧ isNext (perform (.load [0x12, 0x00]) (atPc 4095)) = true := by decide

/-- An instruction that writes, a register and an address it does not. -/
theorem witness_frames :
    isNext (exec (.store 1) (State.reset.setI 0x300)) ∧ mayWriteReg (.store 1) 1 = false ∧
    isNext (exec (.shr 1 0) State.reset) ∧ mayWriteReg (.shr 1 0) 0 = false := by decide

theorem witness_InstructionsKeepOtherMemory : ¬storesTo (.store 1) (State.reset.setI 0x300) 0x302 := by
  simp [storesTo, blockLength, State.indexAddress]

/-- The invariant holds of a state that a call has reached, and the step from it answers a next state. -/
theorem witness_StepKeepsTheInvariant :
    Invariant ((State.reset.setStack 0 0x206).setSp 1) ∧ isNext (step ((State.reset.setStack 0 0x206).setSp 1)) = true :=
  ⟨⟨⟨by decide, by decide⟩, by decide, by decide⟩, by decide⟩

theorem witness_ReachableStatesMeetTheInvariant :
    Reachable (tick State.reset) ∧ isNext (performAll [.tick, .step 0, .setKey 3 true, .step 0] State.reset) = true :=
  ⟨.operation .tick _ _ .reset rfl, by decide⟩

/-- The two words up to the end of memory. -/
theorem witness_ZeroedWordsRunAsNops :
    (atPc 4092).pc.toNat + 2 * 2 ≤ 4096 ∧
    ∀ a, (atPc 4092).pc.toNat ≤ a → a < (atPc 4092).pc.toNat + 2 * 2 → (atPc 4092).mem.read a = 0 := by
  refine ⟨by decide, fun a h _ => ?_⟩
  have h80 : ¬a < 80 := fun h' => absurd (Nat.lt_of_le_of_lt h h') (by decide)
  show initialByte a = 0
  exact dif_neg h80

end Sys2Proof.Tests
end

section
/-! PROOFS. The statements about the state record (spec/10_state.md): what an instruction can answer, the frames over
all instructions, the invariant, STEP(rnd), and the reset state. -/

namespace Sys2Proof.Machine

/-! ## What STEP answers, by stage -/

/-- STEP on a decoded instruction is exec of it past the fetch (R24). -/
theorem step_exec {s : State} {i : Instr} (hp : s.pc.toNat ≤ 4094) (hd : decode (wordAtPc s) = some i) :
    step s = exec i (fetched s) := by
  rw [step, fetch_ok hp, attempt_ok]
  simp only [hd]

/-- STEP on a word that no row has (R66). -/
theorem step_unknown {s : State} (hp : s.pc.toNat ≤ 4094) (hd : decode (wordAtPc s) = none) :
    step s = .fault (.unknownOpcode (wordAtPc s)) := by
  rw [step, fetch_ok hp, attempt_ok]
  simp only [hd]
  rfl

/-- STEP with PC beyond the last word (R43). -/
theorem step_beyond {s : State} (hp : 4094 < s.pc.toNat) :
    step s = .fault (.outOfBoundsAddress (max s.pc.toNat 4096)) := by
  rw [step, fetch_error hp, attempt_error]

/-- The fetch moves a PC that it can use to an address of at most 4096, without a wrap (R43). -/
theorem fetched_pc_toNat {s : State} (hp : s.pc.toNat ≤ 4094) : (fetched s).pc.toNat = s.pc.toNat + 2 :=
  BitVec.toNat_add_of_lt (y := 2) (by simp; omega)

/-- What a STEP(rnd) that answers a next state has done: masked rnd into a register, or executed the instruction. -/
theorem stepWith_next {rnd : Byte} {s t : State} (h : stepWith rnd s = .next t) :
    s.pc.toNat ≤ 4094 ∧
      ((∃ x imm, t = rndWith rnd x imm (fetched s)) ∨ ∃ i, exec i (fetched s) = .next t) := by
  by_cases hp : s.pc.toNat ≤ 4094
  · refine ⟨hp, ?_⟩
    cases hd : decode (wordAtPc s) with
    | none => rw [stepWith_unknown hp hd] at h; cases h
    | some i =>
      by_cases hi : ∃ x imm, i = .rnd x imm
      · obtain ⟨x, imm, rfl⟩ := hi
        rw [stepWith_rnd hp hd] at h
        exact .inl ⟨x, imm, (Host.Outcome.next.inj h).symm⟩
      · rw [stepWith_exec hp hd fun x imm e => hi ⟨x, imm, e⟩] at h
        exact .inr ⟨i, h⟩
  · rw [stepWith_beyond (by omega)] at h; cases h

/-- LOAD that answers a next state had room for the image (R182). -/
theorem loadProgram_next {bytes : List Byte} {s t : State} (h : loadProgram bytes s = .next t) :
    Config.loadBase + bytes.length ≤ 4096 ∧ t = s.setMem (s.mem.writeBytes Config.loadBase bytes) := by
  unfold loadProgram at h
  split at h
  · cases h
  · rename_i hb
    exact ⟨by simp at hb ⊢; omega, (Host.Outcome.next.inj h).symm⟩

theorem setKeyFlag_next {index : Int} {pressed : Bool} {s t : State} (h : setKeyFlag index pressed s = .next t) :
    ∃ k, t = s.setKey k pressed := by
  unfold setKeyFlag at h
  split at h
  · exact ⟨_, (Host.Outcome.next.inj h).symm⟩
  · cases h

/-! ## What an instruction that can fault or branch answers -/

/-- A skip moves PC past the next instruction or changes nothing (R84). -/
theorem skipIf_next {c : Bool} {s t : State} (h : skipIf c s = .next t) : t = s.skip ∨ t = s := by
  cases c with
  | true => exact .inl (Host.Outcome.next.inj h).symm
  | false => exact .inr (Host.Outcome.next.inj h).symm

theorem execSkp_next {x : Reg} {s t : State} (h : execSkp x s = .next t) : t = s.skip ∨ t = s := by
  obtain ⟨_, _, hk⟩ := attempt_next h
  exact skipIf_next hk

theorem execSknp_next {x : Reg} {s t : State} (h : execSknp x s = .next t) : t = s.skip ∨ t = s := by
  obtain ⟨_, _, hk⟩ := attempt_next h
  exact skipIf_next hk

/-- RET that answers a next state has an entry to pop, and jumps to it (R81). -/
theorem execRet_next {s t : State} (h : execRet s = .next t) :
    ∃ k : Fin 16, s.sp.val = k.val + 1 ∧ t = (s.setSp k.castSucc).setPc s.stack[k] := by
  obtain ⟨p, hp, ht⟩ := attempt_next h
  rcases hs : s.sp with ⟨_ | n, hn⟩
  · rw [pop_empty (by rw [hs])] at hp; cases hp
  · rw [pop_ok hs] at hp
    cases hp
    exact ⟨⟨n, by omega⟩, rfl, (Host.Outcome.next.inj ht).symm⟩

/-- CALL that answers a next state has room for an entry, pushes PC and jumps (R83). -/
theorem execCall_next {addr : BitVec 12} {s t : State} (h : execCall addr s = .next t) :
    ∃ k : Fin 16, k.val = s.sp.val ∧ t = ((s.setStack k s.pc).setSp k.succ).setPc (zextAddr addr) := by
  obtain ⟨u, hu, ht⟩ := attempt_next h
  by_cases hs : s.sp.val < 16
  · rw [push_ok hs] at hu
    cases hu
    exact ⟨⟨s.sp.val, hs⟩, rfl, (Host.Outcome.next.inj ht).symm⟩
  · rw [push_full (by omega)] at hu; cases hu

theorem execDraw_next {x y : Reg} {n : Fin 16} {s t : State} (h : execDraw x y n s = .next t) :
    ∃ d b, t = (s.setDisp d).setReg .vf b := by
  obtain ⟨_, _, ht⟩ := attempt_next h
  exact ⟨_, _, (Host.Outcome.next.inj ht).symm⟩

theorem execBcd_next {x : Reg} {s t : State} (h : execBcd x s = .next t) :
    ∃ m, memWrite s.mem s.indexAddress (decimalDigits (s.reg x)) = .ok m ∧ t = s.setMem m := by
  obtain ⟨m, hm, ht⟩ := attempt_next h
  exact ⟨m, hm, (Host.Outcome.next.inj ht).symm⟩

theorem execStore_next {x : Reg} {s t : State} (h : execStore x s = .next t) :
    ∃ m, memWrite s.mem s.indexAddress (s.regsThrough x) = .ok m ∧ t = (s.setMem m).advanceIndex x := by
  obtain ⟨m, hm, ht⟩ := attempt_next h
  exact ⟨m, hm, (Host.Outcome.next.inj ht).symm⟩

theorem execLoad_next {x : Reg} {s t : State} (h : execLoad x s = .next t) :
    ∃ bytes : List Byte, bytes.length = blockLength x ∧ t = (s.loadRegs bytes).advanceIndex x := by
  obtain ⟨bytes, hb, ht⟩ := attempt_next h
  obtain ⟨-, rfl⟩ := memRead_cases hb
  exact ⟨_, Memory.readBytes_length .., (Host.Outcome.next.inj ht).symm⟩

/-- LD Vx,KEY waits with PC back at itself, or writes its register (R143). -/
theorem execLdVxKey_next {x : Reg} {s t : State} (h : execLdVxKey x s = .next t) :
    t = s.setPc (s.pc - 2) ∨ ∃ b, t = s.setReg x b := by
  unfold execLdVxKey at h
  split at h
  · exact .inl (Host.Outcome.next.inj h).symm
  · exact .inr ⟨_, (Host.Outcome.next.inj h).symm⟩

/-! ## Frames: each update stays within its component

The side condition that the updated component is listed is found by unfolding `writes`, so that a frame of an
instruction reads as the chain of its updates. -/

namespace UnchangedExcept

variable {w : List Component} {s t : State}

@[simp] theorem refl (w : List Component) (s : State) : UnchangedExcept w s s := by
  intro c _
  cases c <;> simp [Component.same]

/-- A later update that keeps every component outside the list keeps the frame. -/
theorem trans {u : State} (h : UnchangedExcept w s t) (hu : UnchangedExcept w t u) : UnchangedExcept w s u := by
  intro c hc
  have h₁ := h c hc
  have h₂ := hu c hc
  cases c with
  | mem => exact fun a => (h₂ a).trans (h₁ a)
  | v => exact fun r => (h₂ r).trans (h₁ r)
  | _ => exact Eq.trans h₂ h₁

/-- An update of one listed component keeps the frame. -/
theorem update {u : State} {c₀ : Component} (h : UnchangedExcept w s t) (hw : c₀ ∈ w)
    (hu : ∀ c, c ≠ c₀ → c.same t u) : UnchangedExcept w s u :=
  h.trans fun c hc => hu c fun e => hc (e ▸ hw)

theorem setReg (h : UnchangedExcept w s t) (r : Reg) (x : Byte) (hw : .v ∈ w := by simp [writes]) :
    UnchangedExcept w s (t.setReg r x) :=
  h.update hw fun c hc => by cases c <;> simp [Component.same] at hc ⊢

theorem loadRegs (h : UnchangedExcept w s t) (bytes : List Byte) (hw : .v ∈ w := by simp [writes]) :
    UnchangedExcept w s (t.loadRegs bytes) :=
  h.update hw fun c hc => by cases c <;> simp [Component.same] at hc ⊢

theorem setPc (h : UnchangedExcept w s t) (a : Word) (hw : .pc ∈ w := by simp [writes]) :
    UnchangedExcept w s (t.setPc a) :=
  h.update hw fun c hc => by cases c <;> simp [Component.same] at hc ⊢

theorem setI (h : UnchangedExcept w s t) (a : Word) (hw : .i ∈ w := by simp [writes]) :
    UnchangedExcept w s (t.setI a) :=
  h.update hw fun c hc => by cases c <;> simp [Component.same] at hc ⊢

theorem setDt (h : UnchangedExcept w s t) (x : Byte) (hw : .dt ∈ w := by simp [writes]) :
    UnchangedExcept w s (t.setDt x) :=
  h.update hw fun c hc => by cases c <;> simp [Component.same] at hc ⊢

theorem setSt (h : UnchangedExcept w s t) (x : Byte) (hw : .st ∈ w := by simp [writes]) :
    UnchangedExcept w s (t.setSt x) :=
  h.update hw fun c hc => by cases c <;> simp [Component.same] at hc ⊢

theorem setDisp (h : UnchangedExcept w s t) (d : Display) (hw : .disp ∈ w := by simp [writes]) :
    UnchangedExcept w s (t.setDisp d) :=
  h.update hw fun c hc => by cases c <;> simp [Component.same] at hc ⊢

theorem setMem (h : UnchangedExcept w s t) (m : Memory) (hw : .mem ∈ w := by simp [writes]) :
    UnchangedExcept w s (t.setMem m) :=
  h.update hw fun c hc => by cases c <;> simp [Component.same] at hc ⊢

theorem setStack (h : UnchangedExcept w s t) (k : Fin 16) (a : Word) (hw : .stack ∈ w := by simp [writes]) :
    UnchangedExcept w s (t.setStack k a) :=
  h.update hw fun c hc => by cases c <;> simp [Component.same] at hc ⊢

theorem setSp (h : UnchangedExcept w s t) (n : Fin 17) (hw : .sp ∈ w := by simp [writes]) :
    UnchangedExcept w s (t.setSp n) :=
  h.update hw fun c hc => by cases c <;> simp [Component.same] at hc ⊢

theorem nextDraw (h : UnchangedExcept w s t) (hw : .draws ∈ w := by simp [writes]) : UnchangedExcept w s t.nextDraw :=
  h.update hw fun c hc => by cases c <;> simp [Component.same] at hc ⊢

theorem advanceIndex (h : UnchangedExcept w s t) (x : Reg) (hw : .i ∈ w := by simp [writes]) :
    UnchangedExcept w s (t.advanceIndex x) :=
  h.setI _ hw

theorem of_skip (h : t = s.skip ∨ t = s) (hw : .pc ∈ w := by simp [writes]) : UnchangedExcept w s t := by
  rcases h with rfl | rfl
  · exact (refl w s).setPc _ hw
  · exact refl w _

end UnchangedExcept

/-- The frame of every instruction (R10, the Written by column). -/
theorem exec_unchangedExcept {i : Instr} {s t : State} (h : exec i s = .next t) :
    UnchangedExcept (writes i) s t := by
  have hrefl := UnchangedExcept.refl (writes i) s
  cases i with
  | nop => cases h; exact hrefl
  | cls => cases h; exact hrefl.setDisp _
  | ret =>
    obtain ⟨k, -, rfl⟩ := execRet_next h
    exact (hrefl.setSp _).setPc _
  | jmp | jmpV0 => cases h; exact hrefl.setPc _
  | call =>
    obtain ⟨k, -, rfl⟩ := execCall_next h
    exact ((hrefl.setStack _ _).setSp _).setPc _
  | seImm | sneImm | seReg | sneReg => exact .of_skip (skipIf_next h)
  | skp => exact .of_skip (execSkp_next h)
  | sknp => exact .of_skip (execSknp_next h)
  | ldImm | addImm | ldReg | or | and | xor | ldVxDt => cases h; exact hrefl.setReg _ _
  | addReg | sub | shr | subn | shl =>
    cases h
    exact (hrefl.setReg _ _).setReg _ _
  | ldI | addI | ldIFont => cases h; exact hrefl.setI _
  | rnd => cases h; exact (hrefl.setReg _ _).nextDraw
  | draw =>
    obtain ⟨d, b, rfl⟩ := execDraw_next h
    exact (hrefl.setDisp _).setReg _ _
  | ldVxKey =>
    rcases execLdVxKey_next h with rfl | ⟨b, rfl⟩
    · exact hrefl.setPc _
    · exact hrefl.setReg _ _
  | ldDtVx => cases h; exact hrefl.setDt _
  | ldStVx => cases h; exact hrefl.setSt _
  | bcd =>
    obtain ⟨m, -, rfl⟩ := execBcd_next h
    exact hrefl.setMem _
  | store =>
    obtain ⟨m, -, rfl⟩ := execStore_next h
    exact (hrefl.setMem _).advanceIndex _
  | load =>
    obtain ⟨bytes, -, rfl⟩ := execLoad_next h
    exact (hrefl.loadRegs _).advanceIndex _

/-- The frame of the registers: an instruction without V in its Written by entries keeps all of them, each other one
writes only the registers it names (R11, R12). -/
theorem exec_reg_of_not_mayWriteReg {i : Instr} {s t : State} {r : Reg} (h : exec i s = .next t)
    (hr : mayWriteReg i r = false) : t.reg r = s.reg r := by
  by_cases hv : .v ∈ writes i
  · cases i with
    | ldImm x | addImm x | ldReg x | or x | and x | xor x | ldVxDt x =>
      cases h
      have hx : r ≠ x := beq_eq_false_iff_ne.1 hr
      simp [hx]
    | rnd x =>
      cases h
      have hx : r ≠ x := beq_eq_false_iff_ne.1 hr
      simp [rndWith, hx]
    | addReg x | sub x | shr x | subn x | shl x =>
      cases h
      obtain ⟨hx, hf⟩ : r ≠ x ∧ r ≠ 15 := by simpa [mayWriteReg] using hr
      simp [hx, hf]
    | draw =>
      obtain ⟨d, b, rfl⟩ := execDraw_next h
      have hf : r ≠ 15 := beq_eq_false_iff_ne.1 hr
      simp [hf]
    | ldVxKey x =>
      have hx : r ≠ x := beq_eq_false_iff_ne.1 hr
      rcases execLdVxKey_next h with rfl | ⟨b, rfl⟩ <;> simp [hx]
    | load x =>
      obtain ⟨bytes, hb, rfl⟩ := execLoad_next h
      have hx : bytes.length ≤ r.val := by
        rw [hb, blockLength]
        simpa [mayWriteReg] using hr
      simp [List.getElem?_eq_none hx]
    | _ => simp [writes] at hv
  · exact exec_unchangedExcept h .v hv r

/-- Settles O54: the case split over the instructions is `exec_unchangedExcept`. -/
theorem instructionsKeepToTheirComponents : Obligations.InstructionsKeepToTheirComponents :=
  fun _ _ _ h => exec_unchangedExcept h

/-- Settles O55: by the frame where V is not written, and by instruction where it is. -/
theorem instructionsKeepOtherRegisters : Obligations.InstructionsKeepOtherRegisters :=
  fun _ _ _ _ h hr => exec_reg_of_not_mayWriteReg h hr

/-! ## The invariant -/

/-- The invariant speaks of memory, PC, SP and the stack only. -/
theorem Invariant.of_eq {s t : State} (hs : Invariant s) (hm : t.mem = s.mem) (hp : t.pc = s.pc) (hn : t.sp = s.sp)
    (hk : t.stack = s.stack) : Invariant t := by
  refine ⟨hm ▸ hs.memory, hp ▸ hs.pcBound, ?_⟩
  rw [hn, hk]
  exact hs.returnAddresses

theorem invariant_congr {s t : State} (hm : t.mem = s.mem) (hp : t.pc = s.pc) (hn : t.sp = s.sp)
    (hk : t.stack = s.stack) : Invariant t ↔ Invariant s :=
  ⟨fun ht => ht.of_eq hm.symm hp.symm hn.symm hk.symm, fun hs => hs.of_eq hm hp hn hk⟩

@[simp] theorem invariant_setReg {s : State} {r : Reg} {x : Byte} : Invariant (s.setReg r x) ↔ Invariant s :=
  invariant_congr rfl rfl rfl rfl
@[simp] theorem invariant_loadRegs {s : State} {bytes : List Byte} : Invariant (s.loadRegs bytes) ↔ Invariant s :=
  invariant_congr (s.loadRegs_mem _) (s.loadRegs_pc _) (s.loadRegs_sp _) (s.loadRegs_stack _)
@[simp] theorem invariant_setI {s : State} {a : Word} : Invariant (s.setI a) ↔ Invariant s :=
  invariant_congr rfl rfl rfl rfl
@[simp] theorem invariant_setDt {s : State} {x : Byte} : Invariant (s.setDt x) ↔ Invariant s :=
  invariant_congr rfl rfl rfl rfl
@[simp] theorem invariant_setSt {s : State} {x : Byte} : Invariant (s.setSt x) ↔ Invariant s :=
  invariant_congr rfl rfl rfl rfl
@[simp] theorem invariant_setBeep {s : State} {b : Bool} : Invariant (s.setBeep b) ↔ Invariant s :=
  invariant_congr rfl rfl rfl rfl
@[simp] theorem invariant_setDisp {s : State} {d : Display} : Invariant (s.setDisp d) ↔ Invariant s :=
  invariant_congr rfl rfl rfl rfl
@[simp] theorem invariant_setKey {s : State} {k : Reg} {b : Bool} : Invariant (s.setKey k b) ↔ Invariant s :=
  invariant_congr rfl rfl rfl rfl
@[simp] theorem invariant_nextDraw {s : State} : Invariant s.nextDraw ↔ Invariant s :=
  invariant_congr rfl rfl rfl rfl
@[simp] theorem invariant_advanceIndex {s : State} {x : Reg} : Invariant (s.advanceIndex x) ↔ Invariant s :=
  invariant_congr rfl rfl rfl rfl
@[simp] theorem invariant_rndWith {s : State} {rnd imm : Byte} {x : Reg} :
    Invariant (rndWith rnd x imm s) ↔ Invariant s :=
  invariant_setReg

namespace Invariant

variable {s t : State}

theorem setPc (hs : Invariant s) {a : Word} (ha : a.toNat ≤ 0x10FE) : Invariant (s.setPc a) :=
  ⟨hs.memory, ha, hs.returnAddresses⟩

theorem setMem (hs : Invariant s) {m : Memory} (hm : m.wf) : Invariant (s.setMem m) :=
  ⟨hm, hs.pcBound, hs.returnAddresses⟩

/-- The fetch keeps the invariant (R43). -/
theorem after_fetch (hs : Invariant s) (hp : s.pc.toNat ≤ 4094) : Invariant (fetched s) := by
  have hpc : (s.pc + 2).toNat = s.pc.toNat + 2 := fetched_pc_toNat hp
  exact hs.setPc (by omega)

/-- Dropping the top entry leaves fewer return addresses to speak of. -/
theorem setSp_of_le (hs : Invariant s) {n : Fin 17} (hn : n.val ≤ s.sp.val) : Invariant (s.setSp n) :=
  ⟨hs.memory, hs.pcBound, fun k hk => hs.returnAddresses k (Nat.lt_of_lt_of_le hk hn)⟩

/-- Pushing an address in range adds one return address, the pushed one. -/
theorem pushed (hs : Invariant s) {k : Fin 16} (hk : k.val = s.sp.val) {a : Word} (hlo : 2 ≤ a.toNat)
    (hhi : a.toNat ≤ 4096) : Invariant ((s.setStack k a).setSp k.succ) := by
  refine ⟨hs.memory, hs.pcBound, fun j hj => ?_⟩
  by_cases h : j = k
  · subst h
    simpa using ⟨hlo, hhi⟩
  · have hne : k.val ≠ j.val := fun e => h (Fin.ext e.symm)
    have hlt : j.val < s.sp.val := by
      have : j.val < k.val + 1 := hj
      omega
    simpa [Vector.getElem_set_ne, hne] using hs.returnAddresses j hlt

/-- A skip from the address after an instruction stays below the bound (R13). -/
theorem of_skip (hs : Invariant s) (hhi : s.pc.toNat ≤ 4096) (h : t = s.skip ∨ t = s) : Invariant t := by
  rcases h with rfl | rfl
  · have hpc : (s.pc + 2).toNat = s.pc.toNat + 2 := BitVec.toNat_add_of_lt (by simp; omega)
    exact hs.setPc (by omega)
  · exact hs

end Invariant

theorem toNat_zextAddr_le (addr : BitVec 12) : (zextAddr addr).toNat ≤ 4095 := by
  have := addr.isLt
  simp [zextAddr]
  omega

theorem toNat_zextByte_le (x : Byte) : (zextByte x).toNat ≤ 255 := by
  have := x.isLt
  simp [zextByte]
  omega

/-- The largest PC an instruction can leave: 255 + 4095, by JMP V0+addr (R13, R88). -/
theorem jmpV0_target_le (x : Byte) (addr : BitVec 12) : (zextByte x + zextAddr addr).toNat ≤ 0x10FE := by
  have hx := toNat_zextByte_le x
  have ha := toNat_zextAddr_le addr
  rw [BitVec.toNat_add]
  omega

/-- Memory lists nothing, PC is 0x200 and no return address is in use (R22). -/
theorem invariant_reset : Invariant State.reset :=
  ⟨⟨.nil, nofun⟩, by decide, fun _ h => absurd h (Nat.not_lt_zero _)⟩

/-- Every instruction keeps the invariant when PC is the address after an instruction the fetch could read (R43): CALL
pushes that address, RET jumps to one pushed before, and the jumps and skips stay below the bound. -/
theorem exec_keeps_invariant {i : Instr} {s t : State} (hs : Invariant s) (hlo : 2 ≤ s.pc.toNat)
    (hhi : s.pc.toNat ≤ 4096) (h : exec i s = .next t) : Invariant t := by
  cases i with
  | nop => cases h; exact hs
  | ret =>
    obtain ⟨k, hk, rfl⟩ := execRet_next h
    have hpc := (hs.returnAddresses k (by omega)).2
    exact (hs.setSp_of_le (by simp [hk])).setPc (by omega)
  | jmp addr =>
    cases h
    exact hs.setPc (Nat.le_trans (toNat_zextAddr_le addr) (by decide))
  | call addr =>
    obtain ⟨k, hk, rfl⟩ := execCall_next h
    exact (hs.pushed hk hlo hhi).setPc (Nat.le_trans (toNat_zextAddr_le addr) (by decide))
  | jmpV0 addr => cases h; exact hs.setPc (jmpV0_target_le _ addr)
  | seImm | sneImm | seReg | sneReg => exact hs.of_skip hhi (skipIf_next h)
  | skp => exact hs.of_skip hhi (execSkp_next h)
  | sknp => exact hs.of_skip hhi (execSknp_next h)
  | ldVxKey =>
    rcases execLdVxKey_next h with rfl | ⟨b, rfl⟩
    · refine hs.setPc ?_
      bv_omega
    · exact invariant_setReg.2 hs
  | bcd =>
    obtain ⟨m, hm, rfl⟩ := execBcd_next h
    exact hs.setMem (memWrite_wf hs.memory hm)
  | store =>
    obtain ⟨m, hm, rfl⟩ := execStore_next h
    exact invariant_advanceIndex.2 (hs.setMem (memWrite_wf hs.memory hm))
  | draw =>
    obtain ⟨d, b, rfl⟩ := execDraw_next h
    simpa using hs
  | load =>
    obtain ⟨bytes, -, rfl⟩ := execLoad_next h
    simpa using hs
  | cls | ldImm | addImm | ldReg | or | and | xor | addReg | sub | shr | subn | shl | ldI | rnd | ldVxDt | ldDtVx
  | ldStVx | addI | ldIFont => cases h; simpa using hs

/-- After a fetch the invariant still holds, and PC is where `exec_keeps_invariant` needs it. -/
theorem Invariant.exec_after_fetch {i : Instr} {s t : State} (hs : Invariant s) (hp : s.pc.toNat ≤ 4094)
    (h : exec i (fetched s) = .next t) : Invariant t := by
  have hpc := fetched_pc_toNat hp
  exact exec_keeps_invariant (hs.after_fetch hp) (by omega) (by omega) h

/-- Settles O58: the fetch keeps the invariant, and every instruction does from where the fetch leaves PC. -/
theorem stepKeepsTheInvariant : Obligations.StepKeepsTheInvariant := by
  intro s t hs h
  obtain ⟨hp, i, -, hi⟩ := step_next h
  exact hs.exec_after_fetch hp hi

/-- Settles O57: `invariant_reset`; that an empty list is canonical memory is the model's form (notes/assumptions/4). -/
theorem resetMeetsTheInvariant : Obligations.ResetMeetsTheInvariant :=
  invariant_reset

/-- Every host operation that answers a next state keeps the invariant (R23). -/
theorem perform_keeps_invariant {op : Operation} {s t : State} (hs : Invariant s) (h : perform op s = .next t) :
    Invariant t := by
  cases op with
  | reset => cases h; exact invariant_reset.of_eq rfl rfl rfl rfl
  | load bytes =>
    obtain ⟨hb, rfl⟩ := loadProgram_next h
    exact hs.setMem (Memory.wf_writeBytes hs.memory hb)
  | step rnd =>
    obtain ⟨hp, ⟨x, imm, rfl⟩ | ⟨i, hi⟩⟩ := stepWith_next h
    · exact invariant_rndWith.2 (hs.after_fetch hp)
    · exact hs.exec_after_fetch hp hi
  | tick => cases h; simpa [tick] using hs
  | setKey =>
    obtain ⟨k, b, rfl⟩ := setKeyFlag_next h
    simpa using hs

/-- Induction over a run of operations: what every operation keeps, the run keeps. -/
theorem performAll_induction {P : State → Prop} (hop : ∀ op s t, P s → perform op s = .next t → P t)
    {ops : List Operation} {s t : State} (hs : P s) (h : performAll ops s = .next t) : P t := by
  induction ops generalizing s with
  | nil => cases h; exact hs
  | cons op rest ih =>
    rw [performAll] at h
    cases hu : perform op s with
    | next u => rw [hu] at h; exact ih (hop op s u hs hu) h
    | fault f => rw [hu] at h; cases h
    | refused r => rw [hu] at h; cases h

/-- Settles O59: reset meets the invariant, every operation keeps it, and so does every run of operations; canonical
memory is the model's form (notes/assumptions/4). -/
theorem reachableStatesMeetTheInvariant : Obligations.ReachableStatesMeetTheInvariant := by
  refine ⟨fun s h => ?_, fun ops s t => performAll_induction fun _ _ _ => perform_keeps_invariant⟩
  induction h with
  | reset => exact invariant_reset
  | operation op s t _ h ih => exact perform_keeps_invariant ih h

/-! ## STEP and STEP(rnd) -/

/-- A step whose word is not RND does not look at rnd (R111). -/
theorem stepWith_eq_step {rnd : Byte} {s : State} (hr : ∀ x imm, decode (wordAtPc s) ≠ some (.rnd x imm)) :
    stepWith rnd s = step s := by
  by_cases hp : s.pc.toNat ≤ 4094
  · cases hd : decode (wordAtPc s) with
    | none => rw [stepWith_unknown hp hd, step_unknown hp hd]
    | some i => rw [stepWith_exec hp hd fun x imm e => hr x imm (e ▸ hd), step_exec hp hd]
  · rw [stepWith_beyond (by omega), step_beyond (by omega)]

/-- STEP on RND masks the next draw and counts it (R111). -/
theorem step_rnd {imm : Byte} {x : Reg} {s : State} (hp : s.pc.toNat ≤ 4094)
    (hd : decode (wordAtPc s) = some (.rnd x imm)) :
    step s = .next (rndWith (Config.randomByte s.draws) x imm (fetched s)).nextDraw :=
  step_exec hp hd

/-- A step runs RND, or is STEP(rnd) for every rnd; a PC beyond the last word is the second case, whatever the word
read there decodes to. -/
theorem step_rnd_or_eq_stepWith (s : State) :
    (s.pc.toNat ≤ 4094 ∧ ∃ x imm, decode (wordAtPc s) = some (.rnd x imm)) ∨ ∀ rnd, stepWith rnd s = step s := by
  by_cases hp : s.pc.toNat ≤ 4094
  · by_cases hr : ∃ x imm, decode (wordAtPc s) = some (.rnd x imm)
    · exact .inl ⟨hp, hr⟩
    · exact .inr fun rnd => stepWith_eq_step fun x imm hd => hr ⟨x, imm, hd⟩
  · exact .inr fun rnd => by rw [stepWith_beyond (by omega), step_beyond (by omega)]

/-- Settles O30: on RND both answer a next state, apart only in the counter, and else they are equal. -/
theorem stepIsStepWithTheNextDraw : Obligations.StepIsStepWithTheNextDraw := by
  refine ⟨fun s t h => ?_, fun s f rnd => ?_, fun s rnd hr => stepWith_eq_step hr⟩
  · rcases step_rnd_or_eq_stepWith s with ⟨hp, x, imm, hd⟩ | heq
    · rw [step_rnd hp hd] at h
      cases h
      exact ⟨_, stepWith_rnd hp hd, rfl⟩
    · exact ⟨t, (heq _).trans h, rfl⟩
  · rcases step_rnd_or_eq_stepWith s with ⟨hp, x, imm, hd⟩ | heq
    · simp [perform, step_rnd hp hd, stepWith_rnd hp hd]
    · rw [perform, heq]

/-- Settles O7: `fetched` and `wordAtPc` name the state and the word of the statement. -/
theorem stepRunsTheDecodedInstruction : Obligations.StepRunsTheDecodedInstruction :=
  fun _ _ hp hd => step_exec hp hd

/-! ## The reset state -/

theorem initialByte_font (k : Fin 80) : initialByte k.val = Config.font[k] :=
  dif_pos k.isLt

theorem initialByte_above_font {a : Nat} (h : 80 ≤ a) : initialByte a = 0 :=
  dif_neg (Nat.not_lt.2 h)

/-- Settles O10: memory lists nothing, so each byte is what `initialByte` says. -/
theorem resetLeavesTheStatedValues : Obligations.ResetLeavesTheStatedValues := by
  refine ⟨rfl, fun r => ?_, rfl, rfl, fun k => ?_, rfl, rfl, rfl, Display.lit_blank, fun k => ?_, initialByte_font,
    fun a ha _ => initialByte_above_font ha⟩
  · simp [State.reset, State.reg]
  · simp [State.reset]
  · simp [State.reset]

end Sys2Proof.Machine
end

section
/-! PROOFS. The statements about memory (spec/20_memory.md): the checked accesses, the canonical form, the fetch, and
which bytes an instruction leaves. -/

namespace Sys2Proof.Machine

/-! ## Reading after a block of bytes is stored -/

/-- An address of the block reads its byte. -/
theorem Memory.read_writeBytes_inside (m : Memory) (a : Nat) {bytes : List Byte} {j : Nat} (h : j < bytes.length) :
    (m.writeBytes a bytes).read (a + j) = bytes[j] := by
  rw [Memory.read_writeBytes, if_pos (Nat.le_add_right a j), Nat.add_sub_cancel_left, List.getElem?_eq_getElem h]
  rfl

/-- An address outside the block keeps its byte. -/
theorem Memory.read_writeBytes_outside (m : Memory) {a b : Nat} {bytes : List Byte}
    (h : ¬(a ≤ b ∧ b < a + bytes.length)) : (m.writeBytes a bytes).read b = m.read b := by
  rw [Memory.read_writeBytes]
  split
  · rw [List.getElem?_eq_none (by omega)]
    rfl
  · rfl

/-- A write that MemWrite allows keeps every byte outside its block (R42). -/
theorem memWrite_read_outside {m m' : Memory} {a b : Nat} {bytes : List Byte} (hw : memWrite m a bytes = .ok m')
    (h : ¬(a ≤ b ∧ b < a + bytes.length)) : m'.read b = m.read b := by
  obtain ⟨-, rfl⟩ := memWrite_cases hw
  exact m.read_writeBytes_outside h

/-! ## The checked accesses -/

/-- The lowest missing address of an access that does not fit: its first address, or the one past the memory (R42). -/
theorem max_memSize_eq_ite (a : Nat) : max a 4096 = if 4095 < a then a else 4096 := by
  split <;> omega

/-- Settles O37: by `memRead_ok` and `memWrite_ok` where the access fits, else by `memRead_error` and
`memWrite_error`. -/
theorem accessesAreCheckedWhole : Obligations.AccessesAreCheckedWhole := by
  intro m a
  refine ⟨fun k hk => memRead_ok hk, fun k h0 hk => ?_, fun bytes hb => ?_, fun bytes h0 hb => ?_⟩
  · rw [memRead_error (by omega), max_memSize_eq_ite]
  · exact ⟨_, memWrite_ok hb, fun _ => m.read_writeBytes_inside a, fun _ => m.read_writeBytes_outside⟩
  · rw [memWrite_error (by omega), max_memSize_eq_ite]

/-! ## The canonical form -/

/-- A cell of a memory with rising addresses is what its address reads. -/
theorem Memory.read_of_mem {m : Memory} (hm : m.Pairwise fun c d => c.1 < d.1) {c : Host.Cell} (hc : c ∈ m) :
    m.read c.1 = c.2 := by
  induction m with
  | nil => cases hc
  | cons d rest ih =>
    obtain ⟨hd, hrest⟩ := List.pairwise_cons.1 hm
    rcases List.mem_cons.1 hc with rfl | hc
    · exact if_pos rfl
    · rw [Memory.read, if_neg (Nat.ne_of_lt (hd c hc))]
      exact ih hrest hc

/-- The cells of a canonical memory are the bytes that differ from what RESET put there. -/
theorem Memory.mem_iff_read {m : Memory} (hm : m.wf) {c : Host.Cell} :
    c ∈ m ↔ m.read c.1 = c.2 ∧ c.2 ≠ initialByte c.1 := by
  refine ⟨fun hc => ⟨Memory.read_of_mem hm.1 hc, (hm.2 c hc).2⟩, fun ⟨hread, hne⟩ => ?_⟩
  by_cases hex : ∃ d ∈ m, d.1 = c.1
  · obtain ⟨d, hd, hdc⟩ := hex
    have hbyte : d.2 = c.2 := by rw [← Memory.read_of_mem hm.1 hd, hdc, hread]
    rwa [← Prod.ext hdc hbyte]
  · have hinit : m.read c.1 = initialByte c.1 := Memory.read_eq_initial fun d hd hdc => hex ⟨d, hd, hdc⟩
    exact absurd (hread.symm.trans hinit) hne

theorem Memory.nodup_of_wf {m : Memory} (hm : m.wf) : m.Nodup :=
  hm.1.imp fun hlt heq => Nat.ne_of_lt hlt (congrArg Prod.fst heq)

/-- Settles O39: reading decides which cells are listed (`Memory.mem_iff_read`), and the rising order decides the
list; the canonical form is the model's choice (notes/assumptions/4). -/
theorem canonicalMemoriesThatReadAlikeAreEqual : Obligations.CanonicalMemoriesThatReadAlikeAreEqual := by
  intro m n hm hn hread
  have hmem : ∀ c, c ∈ m ↔ c ∈ n := fun c => by rw [Memory.mem_iff_read hm, Memory.mem_iff_read hn, hread]
  have hperm : m.Perm n := (List.perm_ext_iff_of_nodup (Memory.nodup_of_wf hm) (Memory.nodup_of_wf hn)).2 hmem
  exact hperm.eq_of_pairwise (fun _ _ _ _ hcd hdc => absurd hcd (Nat.lt_asymm hdc)) hm.1 hn.1

/-! ## The fetch -/

/-- Settles O6: `fetch_ok` up to 4094 and `fetch_error` from 4095 on. -/
theorem fetchReadsTheBigEndianWordAtPc : Obligations.FetchReadsTheBigEndianWordAtPc := by
  refine fun s => ⟨fetch_ok, fun hp => ?_, fun hp => ?_⟩
  · rw [fetch_error (by omega), hp]
    rfl
  · rw [fetch_error (by omega), Nat.max_eq_left hp]

/-- STORE that answers a next state had room for its block, and each address of the block reads its register
(R124). -/
theorem execStore_read {x : Reg} {s t : State} (h : execStore x s = .next t) :
    s.indexAddress + blockLength x ≤ 4096 ∧ ∀ q : Reg, q ≤ x → t.mem.read (s.indexAddress + q.val) = s.reg q := by
  obtain ⟨m, hm, rfl⟩ := execStore_next h
  obtain ⟨hb, rfl⟩ := memWrite_cases hm
  rw [State.regsThrough_length] at hb
  refine ⟨hb.resolve_left (Nat.succ_ne_zero _), fun q hq => ?_⟩
  have hlen : q.val < (s.regsThrough x).length := by
    rw [State.regsThrough_length]
    exact Nat.lt_succ_of_le hq
  calc (s.mem.writeBytes s.indexAddress (s.regsThrough x)).read (s.indexAddress + q.val)
      = (s.regsThrough x)[q.val] := s.mem.read_writeBytes_inside _ hlen
    _ = s.reg (Fin.ofNat 16 q.val) := s.regsThrough_getElem x q.val hlen
    _ = s.reg q := by rw [Fin.ofNat_val_eq_self]

/-- Settles O38: both bytes at PC lie in the block, so they read their registers (`execStore_read`). -/
theorem fetchSeesEarlierStores : Obligations.FetchSeesEarlierStores := by
  intro x s t r h hr hpc
  obtain ⟨hb, hread⟩ := execStore_read h
  have hnext : (Fin.ofNat 16 (r.val + 1)).val = r.val + 1 := Nat.mod_eq_of_lt (by omega)
  have hlow : t.mem.read t.pc.toNat = s.reg r := hpc ▸ hread r (Fin.le_def.2 (Nat.le_of_succ_le hr))
  have hhigh : t.mem.read (t.pc.toNat + 1) = s.reg (Fin.ofNat 16 (r.val + 1)) := by
    have hblock := hread (Fin.ofNat 16 (r.val + 1)) (Fin.le_def.2 (hnext.trans_le hr))
    rwa [hnext, ← Nat.add_assoc, hpc] at hblock
  rw [blockLength] at hb
  rw [fetch_ok (by omega), wordAtPc, hlow, hhigh]
  rfl

/-! ## The frame of memory -/

/-- Settles O56: BCD and STORE write their block only, and no other instruction writes memory
(`exec_unchangedExcept`). -/
theorem instructionsKeepOtherMemory : Obligations.InstructionsKeepOtherMemory := by
  intro i s t a h hs
  by_cases hmem : .mem ∈ writes i
  · cases i with
    | bcd =>
      obtain ⟨m, hm, rfl⟩ := execBcd_next h
      exact memWrite_read_outside hm hs
    | store x =>
      obtain ⟨m, hm, rfl⟩ := execStore_next h
      exact memWrite_read_outside hm (by rwa [State.regsThrough_length])
    | _ => simp [writes] at hmem
  · exact exec_unchangedExcept h .mem hmem a

end Sys2Proof.Machine
end

section
/-! PROOFS. The statements about the encoding (spec/30_encoding.md): decoder and encoder are inverse, the encoder
follows the opcode map, the map's rows are disjoint and leave out exactly the listed words. -/

namespace Sys2Proof

open Machine Laws

/-! ## A word is made of its fields -/

theorem f1_append_addrField (w : Word) : f1 w ++ addrField w = w :=
  (BitVec.extractLsb'_append_extractLsb'_eq_extractLsb' rfl).trans BitVec.extractLsb'_eq_self

theorem f2_append_immField (w : Word) : f2 w ++ immField w = addrField w :=
  BitVec.extractLsb'_append_extractLsb'_eq_extractLsb' rfl

theorem f3_append_f4 (w : Word) : f3 w ++ f4 w = immField w :=
  BitVec.extractLsb'_append_extractLsb'_eq_extractLsb' rfl

/-- A word is the format A word of its fields (R61). -/
theorem wordA_fields {w : Word} {op : BitVec 4} (h : f1 w = op) : wordA op (addrField w) = w := by
  rw [wordA, ← h, f1_append_addrField]

/-- A word is the format XI word of its fields (R61). -/
theorem wordXI_fields {w : Word} {op : BitVec 4} (h : f1 w = op) :
    wordXI op (nibbleReg (f2 w)) (immField w) = w := by
  rw [wordXI, regNibble_nibbleReg, f2_append_immField, ← h, f1_append_addrField]

/-- A word is the format XYN word of its fields (R61). -/
theorem wordXYN_fields {w : Word} {op n : BitVec 4} (h : f1 w = op) (hn : f4 w = n) :
    wordXYN op (nibbleReg (f2 w)) (nibbleReg (f3 w)) n = w := by
  rw [wordXYN, ← hn, regNibble_nibbleReg (f3 w), f3_append_f4]
  exact wordXI_fields h

/-! ## What each part of the decoder answers -/

/-- The sixteen values of a nibble, to split on a primary opcode or a last nibble (R61). -/
theorem nibble_cases (b : BitVec 4) :
    b = 0x0 ∨ b = 0x1 ∨ b = 0x2 ∨ b = 0x3 ∨ b = 0x4 ∨ b = 0x5 ∨ b = 0x6 ∨ b = 0x7 ∨
    b = 0x8 ∨ b = 0x9 ∨ b = 0xA ∨ b = 0xB ∨ b = 0xC ∨ b = 0xD ∨ b = 0xE ∨ b = 0xF := by
  revert b; decide

/-! Each sub-decoder answers only an instruction whose word has the opcode and the bits it was given (R65). -/

theorem encode_of_decode0 {w : Word} {i : Instr} (h : decode0 w = some i) : encode i = w := by
  unfold decode0 at h
  split_ifs at h with h0 h1 h2 <;> cases h
  · exact h0.symm
  · exact h1.symm
  · exact h2.symm

theorem encode_of_decode8 {x y : Reg} {op : BitVec 4} {i : Instr} (h : decode8 x y op = some i) :
    encode i = wordXYN 0x8#4 x y op := by
  unfold decode8 at h
  split at h <;> cases h <;> rfl

theorem encode_of_decodeE {x : Reg} {op : Byte} {i : Instr} (h : decodeE x op = some i) :
    encode i = wordXI 0xE#4 x op := by
  unfold decodeE at h
  split at h <;> cases h <;> rfl

theorem encode_of_decodeF {x : Reg} {op : Byte} {i : Instr} (h : decodeF x op = some i) :
    encode i = wordXI 0xF#4 x op := by
  unfold decodeF at h
  split at h <;> cases h <;> rfl

/-! Each sub-decoder rejects exactly the listed values (R66). -/

theorem decode0_eq_none {w : Word} : decode0 w = none ↔ w ≠ 0x0000 ∧ w ≠ 0x00E0 ∧ w ≠ 0x00EE := by
  unfold decode0
  split_ifs <;> simp_all

theorem decode8_eq_none {x y : Reg} {op : BitVec 4} : decode8 x y op = none ↔
    op = 0x8 ∨ op = 0x9 ∨ op = 0xA ∨ op = 0xB ∨ op = 0xC ∨ op = 0xD ∨ op = 0xF := by
  rcases nibble_cases op with h | h | h | h | h | h | h | h | h | h | h | h | h | h | h | h <;>
    simp [h, decode8]

theorem decodeE_eq_none {x : Reg} {op : Byte} : decodeE x op = none ↔ op ≠ 0x9E ∧ op ≠ 0xA1 := by
  unfold decodeE
  split <;> simp_all

theorem decodeF_eq_none {x : Reg} {op : Byte} : decodeF x op = none ↔
    op ≠ 0x07 ∧ op ≠ 0x0A ∧ op ≠ 0x15 ∧ op ≠ 0x18 ∧
      op ≠ 0x1E ∧ op ≠ 0x29 ∧ op ≠ 0x33 ∧ op ≠ 0x55 ∧ op ≠ 0x65 := by
  unfold decodeF
  split <;> simp_all

/-! ## Decoder and encoder are inverse -/

/-- The decoder reads back every instruction from its word (R65). -/
theorem decode_encode (i : Instr) : decode (encode i) = some i := by
  cases i with
  | nop | cls | ret => rfl
  | jmp | call | ldI | jmpV0 => simp [encode, decode]
  | seImm | sneImm | ldImm | addImm | rnd => simp [encode, decode]
  | seReg | sneReg | draw => simp [encode, decode]
  | ldReg | or | and | xor | addReg | sub | shr | subn | shl => simp [encode, decode, decode8]
  | skp | sknp => simp [encode, decode, decodeE]
  | ldVxDt | ldVxKey | ldDtVx | ldStVx | addI | ldIFont | bcd | store | load => simp [encode, decode, decodeF]

/-- A word that decodes is the word of its instruction, by primary opcode: no bit of it is lost (R61, R65). -/
theorem encode_of_decode {w : Word} {i : Instr} (h : decode w = some i) : encode i = w := by
  rcases nibble_cases (f1 w) with hf | hf | hf | hf | hf | hf | hf | hf | hf | hf | hf | hf | hf | hf | hf | hf <;>
    simp only [decode, hf] at h
  · exact encode_of_decode0 h
  · cases h; exact wordA_fields hf
  · cases h; exact wordA_fields hf
  · cases h; exact wordXI_fields hf
  · cases h; exact wordXI_fields hf
  · obtain ⟨hn, ⟨⟩⟩ := Option.ite_none_right_eq_some.1 h
    exact wordXYN_fields hf hn
  · cases h; exact wordXI_fields hf
  · cases h; exact wordXI_fields hf
  · exact (encode_of_decode8 h).trans (wordXYN_fields hf rfl)
  · obtain ⟨hn, ⟨⟩⟩ := Option.ite_none_right_eq_some.1 h
    exact wordXYN_fields hf hn
  · cases h; exact wordA_fields hf
  · cases h; exact wordA_fields hf
  · cases h; exact wordXI_fields hf
  · cases h; exact wordXYN_fields hf (regNibble_nibbleReg _).symm
  · exact (encode_of_decodeE h).trans (wordXI_fields hf)
  · exact (encode_of_decodeF h).trans (wordXI_fields hf)

/-- Settles O2: `encode_of_decode` one way, `decode_encode` the other. -/
theorem decodeIsTheInverseOfEncode : Obligations.DecodeIsTheInverseOfEncode :=
  fun _ i => ⟨encode_of_decode, fun h => h ▸ decode_encode i⟩

/-! ## The words that do not decode -/

/-- Settles O5: by primary opcode; the sub-decoders reject what their `eq_none` lemmas list. -/
theorem unknownWordsAreTheListedOnes : Obligations.UnknownWordsAreTheListedOnes := by
  intro w
  rcases nibble_cases (f1 w) with hf | hf | hf | hf | hf | hf | hf | hf | hf | hf | hf | hf | hf | hf | hf | hf <;>
    simp [decode, hf, decode0_eq_none, decode8_eq_none, decodeE_eq_none, decodeF_eq_none]

/-! ## The encoder follows the opcode map

An operand put at its field's place, as a word of the field's format. -/

theorem placed_f2 (x : Reg) : BitVec.ofNat 16 x.val <<< 8 = wordXI 0 x 0 := by
  revert x; decide

theorem placed_f3 (y : Reg) : BitVec.ofNat 16 y.val <<< 4 = wordXYN 0 0 y 0 := by
  revert y; decide

theorem placed_n (n : Fin 16) : BitVec.ofNat 16 n.val <<< 0 = wordXYN 0 0 0 (regNibble n) := by
  revert n; decide

theorem placed_imm (m : Byte) : BitVec.ofNat 16 m.toNat <<< 0 = wordXI 0 0 m := by
  apply BitVec.eq_of_getLsbD_eq
  intro i hi
  rw [getLsbD_wordXI]
  split
  · simp [hi]
  · simp [hi, BitVec.getLsbD_of_ge m i (by omega), regNibble]

theorem placed_addr (a : BitVec 12) : BitVec.ofNat 16 a.toNat <<< 0 = wordA 0 a := by
  apply BitVec.eq_of_getLsbD_eq
  intro i hi
  rw [getLsbD_wordA]
  split
  · simp [hi]
  · simp [hi, BitVec.getLsbD_of_ge a i (by omega)]

/-! Putting an operand into a word whose field is zero. -/

theorem wordA_or_addr (op : BitVec 4) (a : BitVec 12) : wordA op 0 ||| wordA 0 a = wordA op a :=
  BitVec.or_append.trans (by simp [wordA])

theorem wordXI_or_f2 (op : BitVec 4) (x : Reg) (m : Byte) : wordXI op 0 m ||| wordXI 0 x 0 = wordXI op x m :=
  BitVec.or_append.trans (by rw [BitVec.or_append]; simp [wordXI, regNibble])

theorem wordXI_or_imm (op : BitVec 4) (x : Reg) (m : Byte) : wordXI op x 0 ||| wordXI 0 0 m = wordXI op x m :=
  BitVec.or_append.trans (by rw [BitVec.or_append]; simp [wordXI, regNibble])

theorem wordXYN_or_f2 (op : BitVec 4) (x : Reg) (n : BitVec 4) :
    wordXYN op 0 0 n ||| wordXI 0 x 0 = wordXYN op x 0 n :=
  wordXI_or_f2 op x _

theorem wordXYN_or_f3 (op : BitVec 4) (x y : Reg) (n : BitVec 4) :
    wordXYN op x 0 n ||| wordXYN 0 0 y 0 = wordXYN op x y n :=
  BitVec.or_append.trans (by rw [BitVec.or_append, BitVec.or_append]; simp [wordXYN, regNibble])

theorem wordXYN_or_n (op : BitVec 4) (x y : Reg) (n : BitVec 4) :
    wordXYN op x y 0 ||| wordXYN 0 0 0 n = wordXYN op x y n :=
  BitVec.or_append.trans (by rw [BitVec.or_append, BitVec.or_append]; simp [wordXYN, regNibble])

/-- A raw instruction is well-formed and the word is its word: what the opcode map says of the encoder (R61, R65). -/
def RawInstr.HasWord (r : RawInstr) (w : Word) : Prop := r.wellFormed = true ∧ r.word = some w

/-- A raw instruction with as many operands as its row has fields, each in range, has as its word the row's match value
with the operands put at their fields (R61, R62). -/
theorem RawInstr.hasWord_of_row {r : RawInstr} {o : OpcodeRow} {w : Word} (hrow : r.opcodeRow = some o)
    (hcount : r.operands.length = o.format.fields.length)
    (hfit : ∀ p ∈ r.operands.zip o.format.fields, p.1 < 2 ^ p.2.width)
    (hw : (r.operands.zip o.format.fields).foldl (fun w p => w ||| (BitVec.ofNat 16 p.1 <<< p.2.lo)) o.value = w) :
    r.HasWord w := by
  constructor
  · simpa [RawInstr.wellFormed, RawInstr.rowExists, RawInstr.operandCountRight, RawInstr.operandsFit, hrow, hcount]
      using hfit
  · rw [RawInstr.word, hrow, ← hw]
    rfl

/-! One lemma per format: the match value holds the opcode and the fixed bits, the operands fill the fields (R62). -/

section Formats
variable {k : Nat} {m : String} {K : Word} {op : BitVec 4}

theorem hasWord_a {a : BitVec 12} (hrow : RawInstr.opcodeRow ⟨k, [a.toNat]⟩ = some ⟨m, .a, K⟩)
    (hK : K = wordA op 0) : RawInstr.HasWord ⟨k, [a.toNat]⟩ (wordA op a) := by
  refine RawInstr.hasWord_of_row hrow rfl (by simp [Format.fields, Field.width]; omega) ?_
  change K ||| BitVec.ofNat 16 a.toNat <<< 0 = _
  rw [placed_addr, hK, wordA_or_addr]

theorem hasWord_xi {x : Reg} {imm : Byte}
    (hrow : RawInstr.opcodeRow ⟨k, [x.val, imm.toNat]⟩ = some ⟨m, .xi, K⟩)
    (hK : K = wordXI op 0 0) : RawInstr.HasWord ⟨k, [x.val, imm.toNat]⟩ (wordXI op x imm) := by
  refine RawInstr.hasWord_of_row hrow rfl (by simp [Format.fields, Field.width]; omega) ?_
  change K ||| BitVec.ofNat 16 x.val <<< 8 ||| BitVec.ofNat 16 imm.toNat <<< 0 = _
  rw [placed_f2, placed_imm, hK, wordXI_or_f2, wordXI_or_imm]

theorem hasWord_x {x : Reg} {imm : Byte} (hrow : RawInstr.opcodeRow ⟨k, [x.val]⟩ = some ⟨m, .x, K⟩)
    (hK : K = wordXI op 0 imm) : RawInstr.HasWord ⟨k, [x.val]⟩ (wordXI op x imm) := by
  refine RawInstr.hasWord_of_row hrow rfl (by simp [Format.fields, Field.width]) ?_
  change K ||| BitVec.ofNat 16 x.val <<< 8 = _
  rw [placed_f2, hK, wordXI_or_f2]

theorem hasWord_xy {x y : Reg} {n : BitVec 4}
    (hrow : RawInstr.opcodeRow ⟨k, [x.val, y.val]⟩ = some ⟨m, .xy, K⟩)
    (hK : K = wordXYN op 0 0 n) : RawInstr.HasWord ⟨k, [x.val, y.val]⟩ (wordXYN op x y n) := by
  refine RawInstr.hasWord_of_row hrow rfl (by simp [Format.fields, Field.width]) ?_
  change K ||| BitVec.ofNat 16 x.val <<< 8 ||| BitVec.ofNat 16 y.val <<< 4 = _
  rw [placed_f2, placed_f3, hK, wordXYN_or_f2, wordXYN_or_f3]

theorem hasWord_xyn {x y : Reg} {n : Fin 16}
    (hrow : RawInstr.opcodeRow ⟨k, [x.val, y.val, n.val]⟩ = some ⟨m, .xyn, K⟩)
    (hK : K = wordXYN op 0 0 0) : RawInstr.HasWord ⟨k, [x.val, y.val, n.val]⟩ (wordXYN op x y (regNibble n)) := by
  refine RawInstr.hasWord_of_row hrow rfl (by simp [Format.fields, Field.width]) ?_
  change K ||| BitVec.ofNat 16 x.val <<< 8 ||| BitVec.ofNat 16 y.val <<< 4 ||| BitVec.ofNat 16 n.val <<< 0 = _
  rw [placed_f2, placed_f3, placed_n, hK, wordXYN_or_f2, wordXYN_or_f3, wordXYN_or_n]

end Formats

/-- Settles O3: by the format of each row, whose match value is checked against the encoder's opcode and fixed bits. -/
theorem encodeIsTheRowWithItsOperands : Obligations.EncodeIsTheRowWithItsOperands := by
  intro i
  cases i with
  | nop | cls | ret => exact ⟨rfl, rfl⟩
  | jmp | call | ldI | jmpV0 => exact hasWord_a rfl rfl
  | seImm | sneImm | ldImm | addImm | rnd => exact hasWord_xi rfl rfl
  | seReg | ldReg | or | and | xor | addReg | sub | shr | subn | shl | sneReg => exact hasWord_xy rfl rfl
  | draw => exact hasWord_xyn rfl rfl
  | skp | sknp | ldVxDt | ldVxKey | ldDtVx | ldStVx | addI | ldIFont | bcd | store | load =>
    exact hasWord_x rfl rfl

/-! ## Rows of the opcode map -/

/-- Two rows whose match values agree on the bits that both masks fix are one row. -/
theorem opcodeMap_disjoint : ∀ q ∈ opcodeMap, ∀ r ∈ opcodeMap,
    q.value &&& r.format.mask = r.value &&& q.format.mask → q = r := by
  decide

theorem selects_iff {r : OpcodeRow} {w : Word} : r.selects w = true ↔ w &&& r.format.mask = r.value :=
  beq_iff_eq

/-- No word matches two rows (R64). -/
theorem eq_of_selects {q r : OpcodeRow} {w : Word} (hq : q ∈ opcodeMap) (hr : r ∈ opcodeMap)
    (hqw : q.selects w = true) (hrw : r.selects w = true) : q = r := by
  rw [selects_iff] at hqw hrw
  refine opcodeMap_disjoint q hq r hr ?_
  rw [← hqw, ← hrw, BitVec.and_assoc, BitVec.and_assoc, BitVec.and_comm q.format.mask]

theorem wordWellFormed_iff {w : Word} : wordWellFormed w = true ↔ ∃ r ∈ opcodeMap, r.selects w = true :=
  List.any_eq_true

theorem mem_opcodeMap_of_opcodeRow {r : RawInstr} {o : OpcodeRow} (h : r.opcodeRow = some o) : o ∈ opcodeMap := by
  unfold RawInstr.opcodeRow at h
  split at h
  · cases h
  · exact List.mem_of_getElem? h

/-! ## What a selected word shares with its row's match value

Every mask fixes f1, and the masks of the formats XY, X and Z fix f4, the low byte and the whole word (R64). -/

theorem f1_and (a b : Word) : f1 (a &&& b) = f1 a &&& f1 b := BitVec.extractLsb'_and
theorem f4_and (a b : Word) : f4 (a &&& b) = f4 a &&& f4 b := BitVec.extractLsb'_and
theorem immField_and (a b : Word) : immField (a &&& b) = immField a &&& immField b := BitVec.extractLsb'_and

theorem f1_of_selects {r : OpcodeRow} {w : Word} (h : r.selects w = true) : f1 w = f1 r.value := by
  have hf : f1 r.format.mask = BitVec.allOnes 4 := by cases r.format <;> rfl
  rw [← selects_iff.1 h, f1_and, hf, BitVec.and_allOnes]

theorem eq_of_selects_z {r : OpcodeRow} {w : Word} (h : r.selects w = true) (hz : r.format = .z) : w = r.value := by
  rw [← selects_iff.1 h, hz]
  exact BitVec.and_allOnes.symm

theorem f4_of_selects_xy {r : OpcodeRow} {w : Word} (h : r.selects w = true) (hxy : r.format = .xy) :
    f4 w = f4 r.value := by
  rw [← selects_iff.1 h, f4_and, hxy]
  exact BitVec.and_allOnes.symm

theorem immField_of_selects_x {r : OpcodeRow} {w : Word} (h : r.selects w = true) (hx : r.format = .x) :
    immField w = immField r.value := by
  rw [← selects_iff.1 h, immField_and, hx]
  exact BitVec.and_allOnes.symm

/-- The rows of the primary opcodes that leave words out have one format per primary opcode (R65, R66). -/
theorem format_of_f1 : ∀ r ∈ opcodeMap, (f1 r.value = 0x0 → r.format = .z) ∧
    (f1 r.value = 0x5 ∨ f1 r.value = 0x8 ∨ f1 r.value = 0x9 → r.format = .xy) ∧
    (f1 r.value = 0xE ∨ f1 r.value = 0xF → r.format = .x) := by
  decide

/-- A row that selects an unknown word has a match value that is unknown too: the two agree on all fields that the
list of unknown words looks at (R64, R66). -/
theorem decode_value_eq_none_of_selects {r : OpcodeRow} {w : Word} (hr : r ∈ opcodeMap) (hs : r.selects w = true)
    (h : decode w = none) : decode r.value = none := by
  obtain ⟨hz, hxy, hx⟩ := format_of_f1 r hr
  rw [unknownWordsAreTheListedOnes] at h ⊢
  rw [f1_of_selects hs] at h
  rcases h with ⟨hf, hw⟩ | ⟨hf, hw⟩ | ⟨hf, hw⟩ | ⟨hf, hw⟩ | ⟨hf, hw⟩ | ⟨hf, hw⟩
  · rw [eq_of_selects_z hs (hz hf)] at hw
    exact .inl ⟨hf, hw⟩
  · rw [f4_of_selects_xy hs (hxy (.inl hf))] at hw
    exact .inr (.inl ⟨hf, hw⟩)
  · rw [f4_of_selects_xy hs (hxy (.inr (.inl hf)))] at hw
    exact .inr (.inr (.inl ⟨hf, hw⟩))
  · rw [f4_of_selects_xy hs (hxy (.inr (.inr hf)))] at hw
    exact .inr (.inr (.inr (.inl ⟨hf, hw⟩)))
  · rw [immField_of_selects_x hs (hx (.inl hf))] at hw
    exact .inr (.inr (.inr (.inr (.inl ⟨hf, hw⟩))))
  · rw [immField_of_selects_x hs (hx (.inr hf))] at hw
    exact .inr (.inr (.inr (.inr (.inr ⟨hf, hw⟩))))

/-- The match value of every row is an instruction word: its operands are all zero. -/
theorem decode_value_ne_none : ∀ r ∈ opcodeMap, decode r.value ≠ none := by
  decide

/-- The row of every instruction selects its word. -/
theorem encodingMatchesRow : ∀ i : Instr, EncodingMatchesRow.Statement i
  | .nop => EncodingMatchesRow.nop
  | .cls => EncodingMatchesRow.cls
  | .ret => EncodingMatchesRow.ret
  | .jmp addr => EncodingMatchesRow.jmp addr
  | .call addr => EncodingMatchesRow.call addr
  | .seImm x imm => EncodingMatchesRow.seImm x imm
  | .sneImm x imm => EncodingMatchesRow.sneImm x imm
  | .seReg x y => EncodingMatchesRow.seReg x y
  | .ldImm x imm => EncodingMatchesRow.ldImm x imm
  | .addImm x imm => EncodingMatchesRow.addImm x imm
  | .ldReg x y => EncodingMatchesRow.ldReg x y
  | .or x y => EncodingMatchesRow.or x y
  | .and x y => EncodingMatchesRow.and x y
  | .xor x y => EncodingMatchesRow.xor x y
  | .addReg x y => EncodingMatchesRow.addReg x y
  | .sub x y => EncodingMatchesRow.sub x y
  | .shr x y => EncodingMatchesRow.shr x y
  | .subn x y => EncodingMatchesRow.subn x y
  | .shl x y => EncodingMatchesRow.shl x y
  | .sneReg x y => EncodingMatchesRow.sneReg x y
  | .ldI addr => EncodingMatchesRow.ldI addr
  | .jmpV0 addr => EncodingMatchesRow.jmpV0 addr
  | .rnd x imm => EncodingMatchesRow.rnd x imm
  | .draw x y n => EncodingMatchesRow.draw x y n
  | .skp x => EncodingMatchesRow.skp x
  | .sknp x => EncodingMatchesRow.sknp x
  | .ldVxDt x => EncodingMatchesRow.ldVxDt x
  | .ldVxKey x => EncodingMatchesRow.ldVxKey x
  | .ldDtVx x => EncodingMatchesRow.ldDtVx x
  | .ldStVx x => EncodingMatchesRow.ldStVx x
  | .addI x => EncodingMatchesRow.addI x
  | .ldIFont x => EncodingMatchesRow.ldIFont x
  | .bcd x => EncodingMatchesRow.bcd x
  | .store x => EncodingMatchesRow.store x
  | .load x => EncodingMatchesRow.load x

/-- A word that decodes is selected by the row of its instruction, which is a row of the map. -/
theorem row_of_decode {w : Word} {i : Instr} (h : decode w = some i) :
    ∃ r ∈ opcodeMap, i.raw.opcodeRow = some r ∧ r.selects w = true := by
  obtain ⟨r, hrow, hsel⟩ := encodingMatchesRow i
  rw [encode_of_decode h] at hsel
  exact ⟨r, mem_opcodeMap_of_opcodeRow hrow, hrow, hsel⟩

/-- A word is unknown exactly when no row selects it (R64, R66). -/
theorem decode_eq_none_iff {w : Word} : decode w = none ↔ wordWellFormed w = false := by
  rw [← Bool.not_eq_true, wordWellFormed_iff]
  constructor
  · rintro h ⟨r, hr, hs⟩
    exact decode_value_ne_none r hr (decode_value_eq_none_of_selects hr hs h)
  · intro h
    refine Option.eq_none_iff_forall_ne_some.2 fun i hi => h ?_
    obtain ⟨r, hr, -, hs⟩ := row_of_decode hi
    exact ⟨r, hr, hs⟩

/-- Settles O4: `decode_eq_none_iff` says which words decode, `eq_of_selects` that no word has two rows. -/
theorem decodeSelectsTheOneMatchingRow : Obligations.DecodeSelectsTheOneMatchingRow := by
  refine ⟨fun w => ?_, fun w i r hd hr => ?_, fun w q r => eq_of_selects, fun s hp hw => ?_⟩
  · rw [Bool.eq_iff_iff, Option.isSome_iff_ne_none, ne_eq, decode_eq_none_iff, Bool.not_eq_false]
  · obtain ⟨q, hq, hrow, hqs⟩ := row_of_decode hd
    rw [hrow, Option.some_inj]
    exact ⟨fun hs => eq_of_selects hq hr hqs hs, fun h => h ▸ hqs⟩
  · exact step_unknown hp (decode_eq_none_iff.2 hw)

/-! ## Words written out from the opcode map -/

/-- Settles O1: the decoder evaluates on each of the twelve words. -/
theorem opcodeMapWordsDecode : Obligations.OpcodeMapWordsDecode := by
  unfold Obligations.OpcodeMapWordsDecode
  decide

end Sys2Proof
end

section
/-! PROOFS. The write order where f2 = F (spec/30_encoding.md R70, R71), with what DRAW and LOAD answer when their bytes
exist. -/

namespace Sys2Proof.Machine

/-! ## The pixels of a sprite are all different -/

/-- The pixel under column col of row j, by its two coordinates; both wrap (R131). -/
theorem spritePixel_eq_iff {x y : Byte} {j col : Nat} {p : Pixel} : spritePixel x y j col = p ↔
    p.1.val = (x.toNat + col) % 64 ∧ p.2.val = (y.toNat + j) % 32 := by
  rw [eq_comm, Prod.ext_iff, Fin.ext_iff, Fin.ext_iff]
  rfl

/-- The pixels of one row lie in different columns (R131). -/
theorem nodup_rowPixels (x y : Byte) (j : Nat) (row : Byte) : (rowPixels x y j row).Nodup := by
  refine (List.nodup_range.filter _).map_on fun c hc d hd h => ?_
  have hc : c < 8 := List.mem_range.1 (List.mem_filter.1 hc).1
  have hd : d < 8 := List.mem_range.1 (List.mem_filter.1 hd).1
  have hcol : (x.toNat + c) % 64 = (x.toNat + d) % 64 := congrArg (fun p => p.1.val) h
  omega

/-- The pixels of up to 32 rows are all different: each row lies on its own line of the display (R131 (c)). -/
theorem nodup_spritePixels (x y : Byte) {rows : List Byte} (h : rows.length ≤ 32) (j : Nat) :
    (spritePixels x y j rows).Nodup := by
  induction rows generalizing j with
  | nil => exact List.nodup_nil
  | cons row rest ih =>
    rw [List.length_cons] at h
    refine (nodup_rowPixels x y j row).append (ih (by omega) (j + 1)) fun p hrow hrest => ?_
    obtain ⟨c, -, -, hp⟩ := mem_rowPixels.1 hrow
    obtain ⟨k, _, hk, d, -, -, hq⟩ := mem_spritePixels.1 hrest
    have hk : k < rest.length := (List.getElem?_eq_some_iff.1 hk).1
    have hc := (spritePixel_eq_iff.1 hp).2
    have hd := (spritePixel_eq_iff.1 hq).2
    omega

/-! ## What DRAW and LOAD answer when their bytes exist -/

/-- The pixels that DRAW Vx,Vy,n toggles (R131). -/
def drawnPixels (s : State) (x y : Reg) (n : Fin 16) : List Pixel :=
  spritePixels (s.reg x) (s.reg y) 0 (s.mem.readBytes s.indexAddress n.val)

theorem nodup_drawnPixels (s : State) (x y : Reg) (n : Fin 16) : (drawnPixels s x y n).Nodup :=
  nodup_spritePixels _ _ (by rw [Memory.readBytes_length]; omega) 0

theorem mem_drawnPixels {s : State} {x y : Reg} {n : Fin 16} {p : Pixel} :
    p ∈ drawnPixels s x y n ↔ SpriteCovers s x y n p := by
  rw [drawnPixels, mem_spritePixels]
  constructor
  · rintro ⟨k, row, hk, col, hcol, hbit, hp⟩
    rw [Memory.readBytes_getElem?, Option.ite_none_right_eq_some] at hk
    obtain ⟨hk, ⟨⟩⟩ := hk
    rw [Nat.zero_add, spritePixel_eq_iff] at hp
    exact ⟨k, col, hk, hcol, hbit, hp⟩
  · rintro ⟨k, col, hk, hcol, hbit, hp⟩
    refine ⟨k, _, ?_, col, hcol, hbit, ?_⟩
    · rw [Memory.readBytes_getElem?, if_pos hk]
    · rw [Nat.zero_add, spritePixel_eq_iff]
      exact hp

/-- DRAW with all its rows in memory toggles its pixels and then writes the collision flag (R131). -/
theorem execDraw_ok {x y : Reg} {n : Fin 16} {s : State} (h : n.val = 0 ∨ s.indexAddress + n.val ≤ 4096) :
    exec (.draw x y n) s = .next ((s.setDisp (togglePixels s.disp (drawnPixels s x y n)).1).setReg .vf
      (flag (togglePixels s.disp (drawnPixels s x y n)).2)) := by
  rw [exec, execDraw, memRead_ok h, attempt_ok]
  rfl

/-- The collision flag of DRAW: a pixel that the sprite covers was set (R131). -/
theorem collision_drawnPixels {s : State} {x y : Reg} {n : Fin 16} :
    (togglePixels s.disp (drawnPixels s x y n)).2 = true ↔ ∃ p, SpriteCovers s x y n p ∧ s.disp.lit p = true := by
  simp only [togglePixels_collision _ _ (nodup_drawnPixels s x y n), List.any_eq_true, mem_drawnPixels]

/-- LOAD with its whole block in memory loads the block's bytes and moves I past it (R125). -/
theorem execLoad_ok {x : Reg} {s : State} (h : s.indexAddress + blockLength x ≤ 4096) :
    exec (.load x) s =
      .next ((s.loadRegs (s.mem.readBytes s.indexAddress (blockLength x))).advanceIndex x) := by
  rw [exec, execLoad, memRead_ok (.inr h), attempt_ok]

/-! ## The values VF receives -/

theorem State.setReg_reg_self (s : State) (r : Reg) (x : Byte) : (s.setReg r x).reg r = x := by
  rw [State.setReg_reg, if_pos rfl]

theorem flag_eq_one_iff {b : Bool} : flag b = 1 ↔ b = true := by
  cases b <;> decide

theorem carryFlag_eq_ite (x y : Byte) : carryFlag x y = if x.toNat + y.toNat > 255 then 1 else 0 := by
  simp [carryFlag, flag]

theorem notBorrowFlag_eq_ite (a b : Byte) : notBorrowFlag a b = if a.toNat < b.toNat then 0 else 1 := by
  by_cases h : a.toNat < b.toNat <;> simp [notBorrowFlag, flag, h]

/-- Settles O31: VF reads back the later of the two writes (`State.setReg_reg_self`), computed from the old VF. The
order is the spec's decision D10. -/
theorem laterWriteWinsInVf : Obligations.LaterWriteWinsInVf := by
  intro y n s
  refine ⟨⟨_, rfl, ?add⟩, ⟨_, rfl, ?sub⟩, ⟨_, rfl, ?subn⟩, ⟨_, rfl, ?shr⟩, ⟨_, rfl, ?shl⟩,
    fun hb => ⟨⟨_, execDraw_ok (by omega), ?draw⟩, ⟨_, execLoad_ok (Nat.succ_le_succ hb), ?load⟩⟩⟩
  case add => rw [State.setReg_reg_self, carryFlag_eq_ite]
  case sub | subn => rw [State.setReg_reg_self, notBorrowFlag_eq_ite]
  case shr => rw [State.setReg_reg_self, BitVec.toNat_ushiftRight, Nat.shiftRight_eq_div_pow, pow_one]
  case shl => rw [State.setReg_reg_self, BitVec.toNat_shiftLeft, Nat.shiftLeft_eq, pow_one, Nat.mul_comm]
  case draw => rw [State.setReg_reg_self, flag_eq_one_iff, collision_drawnPixels]
  case load => simp [blockLength]

end Sys2Proof.Machine
end

section
/-! PROOFS. The statements about control flow (spec/40_control.md): what NOP, RET, JMP, CALL and the skips answer, the
round trip of CALL and RET, and zeroed memory as NOPs. -/

namespace Sys2Proof.Machine

open Laws

/-! ## The word of an instruction -/

/-- An instruction's word has the fixed bits of its row (R64). -/
theorem encodedAs_of_opcodeRow {i : Instr} {m : String} {f : Format} {M K : Word}
    (hrow : i.raw.opcodeRow = some ⟨m, f, K⟩) (hM : f.mask = M) : EncodedAs i M K := by
  obtain ⟨r, hr, hsel⟩ := encodingMatchesRow i
  cases hr.symm.trans hrow
  exact hM ▸ selects_iff.1 hsel

/-! ## The call stack -/

/-- RET with k + 1 entries pops the top one, which keeps its value, and jumps to it (R81). -/
theorem exec_ret_ok {s : State} {k : Fin 16} (h : s.sp.val = k.val + 1) :
    exec .ret s = .next ((s.setSp k.castSucc).setPc s.stack[k]) := by
  have hsp : s.sp = ⟨k.val + 1, Nat.succ_lt_succ k.isLt⟩ := Fin.ext h
  rw [exec, execRet, pop_ok hsp, attempt_ok]
  rfl

/-- RET on the empty stack (R81). -/
theorem exec_ret_empty {s : State} (h : s.sp.val = 0) : exec .ret s = .fault .stackUnderflow := by
  rw [exec, execRet, pop_empty h, attempt_error]

/-- CALL with k entries pushes the address after it as entry k and jumps (R83). -/
theorem exec_call_ok {addr : BitVec 12} {s : State} {k : Fin 16} (h : s.sp.val = k.val) :
    exec (.call addr) s = .next (((s.setStack k s.pc).setSp k.succ).setPc (zextAddr addr)) := by
  have hsp : s.sp.val < 16 := h ▸ k.isLt
  obtain rfl : k = ⟨s.sp.val, hsp⟩ := Fin.ext h.symm
  rw [exec, execCall, push_ok hsp, attempt_ok]
  rfl

/-- CALL on the full stack (R83). -/
theorem exec_call_full {addr : BitVec 12} {s : State} (h : s.sp.val = 16) :
    exec (.call addr) s = .fault .stackOverflow := by
  rw [exec, execCall, push_full h, attempt_error]

/-- An entry reads back what was stored to it, and every other entry keeps its value (R15). -/
theorem State.setStack_getElem (s : State) (k j : Fin 16) (a : Word) :
    (s.setStack k a).stack[j] = if j.val = k.val then a else s.stack[j] := by
  rw [State.setStack_stack]
  exact (Vector.getElem_set k.isLt j.isLt).trans (if_congr eq_comm rfl rfl)

/-- Settles O17: CALL puts the return address where RET takes it from, and counts it as RET uncounts it. -/
theorem callThenRetReturnsAfterTheCall : Obligations.CallThenRetReturnsAfterTheCall := by
  intro addr s hsp
  obtain ⟨k, hk⟩ : ∃ k : Fin 16, s.sp.val = k.val := ⟨⟨s.sp.val, hsp⟩, rfl⟩
  refine ⟨_, exec_call_ok (s := fetched s) hk, fun u husp hustack => ?_⟩
  refine ⟨_, exec_ret_ok (k := k) (congrArg Fin.val husp), ?_, Fin.ext hk.symm⟩
  calc u.stack[k]
      = ((fetched s).setStack k (fetched s).pc).stack[k] := by rw [hustack]; rfl
    _ = (fetched s).pc := by rw [State.setStack_getElem, if_pos rfl]

/-- Settles O14: `exec_ret_ok` and `exec_ret_empty`. That the popped entry keeps its value is decision D5. -/
theorem retPopsThePc : Obligations.RetPopsThePc := by
  refine ⟨rfl, fun s n hn hsp => ?_, fun s => exec_ret_empty⟩
  have hret := exec_ret_ok (s := s) (k := ⟨n, hn⟩) hsp
  exact ⟨_, hret, rfl, rfl, exec_unchangedExcept hret⟩

/-! ## Jumps and CALL -/

theorem toNat_zextAddr (addr : BitVec 12) : (zextAddr addr).toNat = addr.toNat :=
  BitVec.toNat_setWidth_of_le (by decide)

theorem toNat_zextByte (x : Byte) : (zextByte x).toNat = x.toNat :=
  BitVec.toNat_setWidth_of_le (by decide)

/-- Settles O15: zero extension keeps the address. -/
theorem jmpGoesToTheAddress : Obligations.JmpGoesToTheAddress := by
  intro addr s
  exact ⟨encodedAs_of_opcodeRow rfl rfl, _, rfl, toNat_zextAddr addr, exec_unchangedExcept (i := .jmp addr) rfl⟩

/-- The target of JMP V0+addr is the exact sum: 255 + 4095 is below 65536 (R88). -/
theorem toNat_zextByte_add_zextAddr (x : Byte) (addr : BitVec 12) :
    (zextByte x + zextAddr addr).toNat = x.toNat + addr.toNat := by
  have hx := toNat_zextByte_le x
  have ha := toNat_zextAddr_le addr
  rw [BitVec.toNat_add_of_lt (by omega), toNat_zextByte, toNat_zextAddr]

/-- Settles O20: by `toNat_zextByte_add_zextAddr`, no wrap of the sum. -/
theorem jmpV0AddsRegisterZero : Obligations.JmpV0AddsRegisterZero := by
  intro addr s
  exact ⟨encodedAs_of_opcodeRow rfl rfl, _, rfl, toNat_zextByte_add_zextAddr _ addr,
    exec_unchangedExcept (i := .jmpV0 addr) rfl⟩

/-- Settles O16: `exec_call_ok` up to 15 entries and `exec_call_full` at 16. -/
theorem callPushesTheReturnAddress : Obligations.CallPushesTheReturnAddress := by
  intro addr s
  refine ⟨encodedAs_of_opcodeRow rfl rfl, fun hsp => ?_, exec_call_full⟩
  have hcall := exec_call_ok (addr := addr) (s := s) (k := ⟨s.sp.val, hsp⟩) rfl
  exact ⟨_, hcall, toNat_zextAddr addr, rfl, fun j => s.setStack_getElem _ j s.pc, exec_unchangedExcept hcall⟩

/-! ## Skips -/

/-- An instruction that is a skip on a condition moves PC by 2 exactly when the condition holds, and does no more
(R84 to R87). -/
theorem exec_skip_spec {i : Instr} {s : State} {c : Bool} (hexec : exec i s = skipIf c s) (hw : writes i = [.pc]) :
    ∃ t, exec i s = .next t ∧ t.pc = (if c then s.pc + 2 else s.pc) ∧ UnchangedExcept [.pc] s t := by
  have hpc : (if c then s.skip else s).pc = if c then s.pc + 2 else s.pc := by cases c <;> rfl
  exact ⟨_, hexec, hpc, hw ▸ exec_unchangedExcept hexec⟩

/-- A skip on equality. -/
theorem exec_skip_eq {i : Instr} {s : State} {a b : Byte} (hexec : exec i s = skipIf (a == b) s)
    (hw : writes i = [.pc]) :
    ∃ t, exec i s = .next t ∧ t.pc = (if a = b then s.pc + 2 else s.pc) ∧ UnchangedExcept [.pc] s t := by
  simpa using exec_skip_spec hexec hw

/-- A skip on difference. -/
theorem exec_skip_ne {i : Instr} {s : State} {a b : Byte} (hexec : exec i s = skipIf (a != b) s)
    (hw : writes i = [.pc]) :
    ∃ t, exec i s = .next t ∧ t.pc = (if a = b then s.pc else s.pc + 2) ∧ UnchangedExcept [.pc] s t := by
  simpa using exec_skip_spec hexec hw

/-- Settles O18: SE is a skip on equality, SNE on difference. -/
theorem immediateSkips : Obligations.ImmediateSkips :=
  fun _ _ _ => ⟨encodedAs_of_opcodeRow rfl rfl, encodedAs_of_opcodeRow rfl rfl, exec_skip_eq rfl rfl,
    exec_skip_ne rfl rfl⟩

/-- Settles O19: SE is a skip on equality, SNE on difference. -/
theorem registerSkips : Obligations.RegisterSkips :=
  fun _ _ _ => ⟨encodedAs_of_opcodeRow rfl rfl, encodedAs_of_opcodeRow rfl rfl, exec_skip_eq rfl rfl,
    exec_skip_ne rfl rfl⟩

/-! ## NOP and zeroed memory -/

/-- Settles O13: both parts are the definitions. -/
theorem nopChangesNothing : Obligations.NopChangesNothing :=
  ⟨rfl, fun _ => rfl⟩

/-- A step on a zero word only moves PC past it (R80). -/
theorem step_zero_word {s : State} (hp : s.pc.toNat ≤ 4094) (hhigh : s.mem.read s.pc.toNat = 0)
    (hlow : s.mem.read (s.pc.toNat + 1) = 0) : step s = .next (fetched s) := by
  have hword : wordAtPc s = encode .nop := by rw [wordAtPc, hhigh, hlow]; rfl
  rw [step_exec hp (hword ▸ decode_encode .nop), nopChangesNothing.2]

theorem stepTimes_succ_of_next {k : Nat} {s t : State} (h : step s = .next t) :
    stepTimes (k + 1) s = stepTimes k t := by
  simp only [stepTimes, h]

/-- Settles O60: by induction on the number of words, from every state; each step is `step_zero_word`. -/
theorem zeroedWordsRunAsNops : Obligations.ZeroedWordsRunAsNops := by
  intro k
  induction k with
  | zero =>
    intro s _ _
    simp [stepTimes]
  | succ k ih =>
    intro s hend hzero
    have hp : s.pc.toNat ≤ 4094 := by omega
    have hstep := step_zero_word hp (hzero _ (by omega) (by omega)) (hzero _ (by omega) (by omega))
    have hpc := fetched_pc_toNat hp
    have hrest := ih (fetched s) (by omega) fun a hlo hhi => hzero a (by omega) (by omega)
    have hadd : (fetched s).pc + BitVec.ofNat 16 (2 * k) = s.pc + BitVec.ofNat 16 (2 * (k + 1)) := by
      rw [Nat.mul_succ, Nat.add_comm (2 * k), BitVec.ofNat_add, ← BitVec.add_assoc]
      rfl
    rw [stepTimes_succ_of_next hstep, hrest, hadd]
    rfl

end Sys2Proof.Machine
end

section
/-! PROOFS. The statements about the register instructions (spec/41_alu.md): loads, arithmetic, logic, shifts and the
random byte. -/

namespace Sys2Proof.Machine

/-! ## Reads after a write, and the frames -/

theorem State.setReg_reg_of_ne {r q : Reg} (h : q ≠ r) (s : State) (x : Byte) : (s.setReg r x).reg q = s.reg q := by
  rw [State.setReg_reg, if_neg h]

/-- Of two writes to different registers, the earlier one's register reads back the earlier value (R71). -/
theorem State.setReg_setReg_reg {r q : Reg} (h : q ≠ r) (s : State) (x y : Byte) :
    ((s.setReg q x).setReg r y).reg q = x := by
  rw [State.setReg_reg_of_ne h, State.setReg_reg_self]

/-- An instruction whose one effect is to write its destination keeps every other register, VF included, and every
other component (R100 to R105). -/
theorem exec_destination_frame {i : Instr} {x : Reg} {s t : State} (h : exec i s = .next t) (hw : writes i = [.v])
    (hr : ∀ r, mayWriteReg i r = (r == x)) :
    (∀ r, r ≠ x → t.reg r = s.reg r) ∧ UnchangedExcept [.v] s t := by
  refine ⟨fun r hx => exec_reg_of_not_mayWriteReg h ?_, hw ▸ exec_unchangedExcept h⟩
  rw [hr, beq_eq_false_iff_ne.2 hx]

/-- An instruction whose effects are to write its destination and VF keeps every other register and every other
component (R106 to R110). -/
theorem exec_flagged_frame {i : Instr} {x : Reg} {s t : State} (h : exec i s = .next t) (hw : writes i = [.v])
    (hr : ∀ r, mayWriteReg i r = (r == x || r == 15)) :
    (∀ r, r ≠ x → r ≠ 15 → t.reg r = s.reg r) ∧ UnchangedExcept [.v] s t := by
  refine ⟨fun r hx hf => exec_reg_of_not_mayWriteReg h ?_, hw ▸ exec_unchangedExcept h⟩
  rw [hr, beq_eq_false_iff_ne.2 hx, beq_eq_false_iff_ne.2 hf, Bool.or_false]

/-! ## Loads, ADD Vx,imm and logic -/

/-- Settles O22: both are one `setReg`, and `State.setReg_reg` reads every register after it. -/
theorem registerLoadsSetExactlyTheDestination : Obligations.RegisterLoadsSetExactlyTheDestination := by
  intro x y imm s
  refine ⟨encodedAs_of_opcodeRow rfl rfl, encodedAs_of_opcodeRow rfl rfl, ⟨_, rfl, ?imm⟩, ⟨_, rfl, ?reg⟩⟩
  case imm => exact ⟨fun r => s.setReg_reg x r imm, exec_unchangedExcept (i := .ldImm x imm) rfl⟩
  case reg => exact ⟨fun r => s.setReg_reg x r (s.reg y), exec_unchangedExcept (i := .ldReg x y) rfl⟩

/-- Settles O23: addition of bytes is modulo 256, and the destination is the only register written. -/
theorem addImmWrapsWithoutAFlag : Obligations.AddImmWrapsWithoutAFlag := by
  intro x imm s
  refine ⟨encodedAs_of_opcodeRow rfl rfl, _, rfl, ?_, exec_destination_frame (i := .addImm x imm) rfl rfl fun _ => rfl⟩
  rw [State.setReg_reg_self, BitVec.toNat_add]

/-- Settles O24: each bit of the destination is the operation on the two bits, and no other register is written. -/
theorem logicInstructionsLeaveVf : Obligations.LogicInstructionsLeaveVf := by
  intro x y s
  refine ⟨encodedAs_of_opcodeRow rfl rfl, encodedAs_of_opcodeRow rfl rfl, encodedAs_of_opcodeRow rfl rfl,
    ⟨_, rfl, fun k => ?or, exec_destination_frame (i := .or x y) rfl rfl fun _ => rfl⟩,
    ⟨_, rfl, fun k => ?and, exec_destination_frame (i := .and x y) rfl rfl fun _ => rfl⟩,
    ⟨_, rfl, fun k => ?xor, exec_destination_frame (i := .xor x y) rfl rfl fun _ => rfl⟩⟩
  case or => rw [State.setReg_reg_self, BitVec.getLsbD_or]
  case and => rw [State.setReg_reg_self, BitVec.getLsbD_and]
  case xor => rw [State.setReg_reg_self, BitVec.getLsbD_xor]

/-! ## ADD, SUB and SUBN: the flag is the later write -/

/-- Settles O25: the sum is written first and the carry second, so VF reads the carry for every destination. -/
theorem addRegSetsTheCarry : Obligations.AddRegSetsTheCarry := by
  intro x y s
  refine ⟨encodedAs_of_opcodeRow rfl rfl, _, rfl, ?carry, fun hx => ?sum,
    exec_flagged_frame (i := .addReg x y) rfl rfl fun _ => rfl⟩
  case carry => rw [State.setReg_reg_self, carryFlag_eq_ite]
  case sum => rw [State.setReg_setReg_reg hx, BitVec.toNat_add]

/-- The difference of two bytes is the difference of their values modulo 256 (R107, R109). -/
theorem toNat_sub_eq_emod (a b : Byte) : ((a - b).toNat : Int) = ((a.toNat : Int) - b.toNat) % 256 := by
  have hb := b.isLt
  rw [BitVec.toNat_sub]
  omega

/-- Settles O26: the difference is written first and the not-borrow second, so VF reads the flag for every
destination. -/
theorem subtractionsSetTheNotBorrow : Obligations.SubtractionsSetTheNotBorrow := by
  intro x y s
  refine ⟨encodedAs_of_opcodeRow rfl rfl, encodedAs_of_opcodeRow rfl rfl,
    ⟨_, rfl, ?flag, fun hx => ?diff, exec_flagged_frame (i := .sub x y) rfl rfl fun _ => rfl⟩,
    ⟨_, rfl, ?flagN, fun hx => ?diffN, exec_flagged_frame (i := .subn x y) rfl rfl fun _ => rfl⟩⟩
  case flag | flagN => rw [State.setReg_reg_self, notBorrowFlag_eq_ite]
  case diff | diffN => rw [State.setReg_setReg_reg hx, toNat_sub_eq_emod]

/-! ## SHR and SHL: the shifted value is the later write -/

theorem toNat_ushiftRight_one (a : Byte) : (a >>> 1).toNat = a.toNat / 2 := by
  rw [BitVec.toNat_ushiftRight, Nat.shiftRight_eq_div_pow, pow_one]

theorem toNat_shiftLeft_one (a : Byte) : (a <<< 1).toNat = 2 * a.toNat % 256 := by
  rw [BitVec.toNat_shiftLeft, Nat.shiftLeft_eq, pow_one, Nat.mul_comm]

/-- The bit that SHR shifts out is the remainder of the halving (R108). -/
theorem toNat_shiftedOutRight (a : Byte) : (shiftedOutRight a).toNat = a.toNat % 2 := by
  rw [shiftedOutRight, BitVec.toNat_and]
  exact Nat.and_one_is_mod a.toNat

/-- The bit that SHL shifts out is the carry of the doubling (R110). -/
theorem toNat_shiftedOutLeft (a : Byte) : (shiftedOutLeft a).toNat = a.toNat / 128 := by
  have ha := a.isLt
  have hbit : (shiftedOutLeft a).toNat = a.toNat / 128 % 2 := by
    rw [shiftedOutLeft, BitVec.toNat_and, BitVec.toNat_ushiftRight, Nat.shiftRight_eq_div_pow]
    exact Nat.and_one_is_mod (a.toNat / 128)
  omega

/-- Settles O27: the bit shifted out is written to VF first and the shifted value second, so V[f2] reads the shifted
value for every f2; neither value is computed from f3. -/
theorem shiftsMoveVxByOne : Obligations.ShiftsMoveVxByOne := by
  intro x y s
  refine ⟨encodedAs_of_opcodeRow rfl rfl, encodedAs_of_opcodeRow rfl rfl,
    ⟨_, rfl, ?half, fun hx => ?low, exec_flagged_frame (i := .shr x y) rfl rfl fun _ => rfl⟩,
    ⟨_, rfl, ?double, fun hx => ?high, exec_flagged_frame (i := .shl x y) rfl rfl fun _ => rfl⟩⟩
  case half => rw [State.setReg_reg_self, toNat_ushiftRight_one]
  case low => rw [State.setReg_setReg_reg hx.symm, toNat_shiftedOutRight]
  case double => rw [State.setReg_reg_self, toNat_shiftLeft_one]
  case high => rw [State.setReg_setReg_reg hx.symm, toNat_shiftedOutLeft]

/-! ## RND -/

/-- RND with a given byte writes the masked byte to its destination and no other register (R111). -/
theorem rndWith_reg (rnd imm : Byte) (x r : Reg) (s : State) :
    (rndWith rnd x imm s).reg r = if r = x then rnd &&& imm else s.reg r :=
  s.setReg_reg x r (rnd &&& imm)

/-- Settles O28: STEP(rnd) on RND is `rndWith` past the fetch (`stepWith_rnd`), which moves PC only. That rnd is an
input is the spec's decision D8. -/
theorem rndMasksTheStepInput : Obligations.RndMasksTheStepInput := by
  refine fun x imm rnd s => ⟨encodedAs_of_opcodeRow rfl rfl, fun hp hd => ⟨_, stepWith_rnd hp hd, ?_, rfl, ?_⟩⟩
  · exact fun r => rndWith_reg rnd imm x r (fetched s)
  · exact ((UnchangedExcept.refl _ s).setPc _).setReg _ _

/-- Settles O29: the draw is masked, and only the counter changes after it. The counter is the model's choice
(notes/assumptions/1). -/
theorem rndTakesTheNextDraw : Obligations.RndTakesTheNextDraw := by
  intro x imm s
  have hreg := fun r => rndWith_reg (Config.randomByte s.draws) imm x r s
  refine ⟨_, rfl, hreg, fun k hk => ?mask, rfl, exec_unchangedExcept (i := .rnd x imm) rfl⟩
  case mask => rw [State.nextDraw_reg, hreg, if_pos rfl, BitVec.getLsbD_and, hk, Bool.and_false]

end Sys2Proof.Machine
end

section
/-! PROOFS. The statements about the index register and memory (spec/42_index_memory.md): the writes of I, and what BCD,
STORE and LOAD answer when their bytes exist and when they do not. -/

namespace Sys2Proof.Machine

/-! ## What BCD, STORE and LOAD answer, by where their bytes lie -/

/-- BCD with its three bytes in memory stores the digits (R123). -/
theorem execBcd_ok {x : Reg} {s : State} (h : s.indexAddress + 2 ≤ 4095) :
    exec (.bcd x) s = .next (s.setMem (s.mem.writeBytes s.indexAddress (decimalDigits (s.reg x)))) := by
  rw [exec, execBcd, memWrite_ok (.inr (Nat.succ_le_succ h)), attempt_ok]

/-- BCD with a byte beyond the memory (R123). -/
theorem execBcd_error {x : Reg} {s : State} (h : 4095 < s.indexAddress + 2) :
    exec (.bcd x) s = .fault (.outOfBoundsAddress (max s.indexAddress 4096)) := by
  rw [exec, execBcd, memWrite_error (by simp [decimalDigits]; omega), attempt_error]

/-- STORE with its whole block in memory stores the registers and moves I past the block (R124). -/
theorem execStore_ok {x : Reg} {s : State} (h : s.indexAddress + x.val ≤ 4095) :
    exec (.store x) s =
      .next ((s.setMem (s.mem.writeBytes s.indexAddress (s.regsThrough x))).advanceIndex x) := by
  have hb : s.indexAddress + (s.regsThrough x).length ≤ 4096 := by
    rw [State.regsThrough_length]
    exact Nat.succ_le_succ h
  rw [exec, execStore, memWrite_ok (.inr hb), attempt_ok]

/-- STORE with a byte of its block beyond the memory (R124). -/
theorem execStore_error {x : Reg} {s : State} (h : 4095 < s.indexAddress + x.val) :
    exec (.store x) s = .fault (.outOfBoundsAddress (max s.indexAddress 4096)) := by
  have hb : ¬((s.regsThrough x).length = 0 ∨ s.indexAddress + (s.regsThrough x).length ≤ 4096) := by
    rw [State.regsThrough_length, blockLength]
    omega
  rw [exec, execStore, memWrite_error hb, attempt_error]

/-- LOAD with a byte of its block beyond the memory (R125). -/
theorem execLoad_error {x : Reg} {s : State} (h : 4095 < s.indexAddress + x.val) :
    exec (.load x) s = .fault (.outOfBoundsAddress (max s.indexAddress 4096)) := by
  rw [exec, execLoad, memRead_error (by rw [blockLength]; omega), attempt_error]

/-! ## What the block leaves in I and in the registers -/

/-- I past a block that lies in memory is the exact sum: it is at most 4096 (R124, R125). -/
theorem toNat_add_blockLength {i : Word} {x : Reg} (h : i.toNat + x.val ≤ 4095) :
    (i + BitVec.ofNat 16 (blockLength x)).toNat = i.toNat + x.val + 1 := by
  have hx : (BitVec.ofNat 16 (blockLength x)).toNat = x.val + 1 := Nat.mod_eq_of_lt (by rw [blockLength]; omega)
  rw [BitVec.toNat_add_of_lt (by omega), hx, Nat.add_assoc]

/-- LOAD's registers: V[0] to V[f2] are the bytes of the block, the ones above are kept (R125). -/
theorem loadRegs_readBytes_reg (s : State) (m : Memory) (a : Nat) (x r : Reg) :
    (s.loadRegs (m.readBytes a (blockLength x))).reg r = if r ≤ x then m.read (a + r.val) else s.reg r := by
  have hr : r.val < blockLength x ↔ r ≤ x := Nat.lt_succ_iff
  simp only [State.loadRegs_reg, Memory.readBytes_getElem?, hr]
  split <;> rfl

/-! ## STORE and LOAD -/

/-- Settles O34: `execStore_ok` with the reads of the block inside (`execStore_read`) and outside it, and
`execStore_error` beyond the memory. The fault's address is decisions D3 and D4. -/
theorem storeWritesTheRegisterBlock : Obligations.StoreWritesTheRegisterBlock := by
  intro x s
  refine ⟨encodedAs_of_opcodeRow rfl rfl, fun hb => ?stores, fun hb => ?faults⟩
  case stores =>
    have hstore := execStore_ok hb
    refine ⟨_, hstore, (execStore_read hstore).2, fun a ha => ?_, toNat_add_blockLength (i := s.i) hb,
      exec_unchangedExcept hstore⟩
    refine s.mem.read_writeBytes_outside ?_
    rwa [State.regsThrough_length, blockLength, ← Nat.add_assoc, Nat.lt_succ_iff]
  case faults => rw [execStore_error hb, max_memSize_eq_ite]

/-- Settles O35: `execLoad_ok` with the registers it leaves (`loadRegs_readBytes_reg`), and `execLoad_error` beyond the
memory. The fault's address is decisions D3 and D4. -/
theorem loadReadsTheRegisterBlock : Obligations.LoadReadsTheRegisterBlock := by
  intro x s
  refine ⟨encodedAs_of_opcodeRow rfl rfl, fun hb => ?loads, fun hb => ?faults⟩
  case loads =>
    have hload := execLoad_ok (x := x) (s := s) (Nat.succ_le_succ hb)
    exact ⟨_, hload, fun r => loadRegs_readBytes_reg s s.mem _ x r, toNat_add_blockLength (i := s.i) hb,
      exec_unchangedExcept hload⟩
  case faults => rw [execLoad_error hb, max_memSize_eq_ite]

/-- Settles O36: LOAD reads from the block that STORE left (`execStore_read`), and both move I by its length. -/
theorem storeThenLoadRestoresTheRegisters : Obligations.StoreThenLoadRestoresTheRegisters := by
  intro x s u v h
  obtain ⟨hb, hread⟩ := execStore_read h
  obtain ⟨m, -, rfl⟩ := execStore_next h
  refine ⟨_, execLoad_ok hb, fun r hr => ?_, rfl⟩
  rw [State.advanceIndex_reg, loadRegs_readBytes_reg, if_pos hr]
  exact hread r hr

/-! ## BCD -/

/-- The three stored bytes are the digits themselves: each is below 256 (R123). -/
theorem decimalDigits_toNat (b : Byte) :
    (decimalDigits b).map BitVec.toNat = [b.toNat / 100, b.toNat / 10 % 10, b.toNat % 10] := by
  have hb := b.isLt
  simp only [decimalDigits, List.map_cons, List.map_nil, BitVec.toNat_ofNat, List.cons.injEq, and_true]
  omega

/-- After BCD's bytes are stored, the byte at I + j is digit j (R123). -/
theorem read_writeBytes_decimalDigits (m : Memory) (a : Nat) (b : Byte) (j : Fin 3) :
    ((m.writeBytes a (decimalDigits b)).read (a + j.val)).toNat =
      [b.toNat / 100, b.toNat / 10 % 10, b.toNat % 10][j] := by
  rw [m.read_writeBytes_inside a (bytes := decimalDigits b) j.isLt]
  simp only [← decimalDigits_toNat]
  exact (List.getElem_map _).symm

/-- Settles O33: `execBcd_ok` with the three digits (`read_writeBytes_decimalDigits`), and `execBcd_error`, whose
address is the larger of I and 4096. -/
theorem bcdStoresThreeDigits : Obligations.BcdStoresThreeDigits := by
  intro x s
  refine ⟨encodedAs_of_opcodeRow rfl rfl, fun hb => ?stores, fun hb => ?straddles, fun hb => ?beyond⟩
  case stores =>
    have hbcd := execBcd_ok (x := x) hb
    have hdigit := read_writeBytes_decimalDigits s.mem s.indexAddress (s.reg x)
    refine ⟨_, hbcd, hdigit 0, hdigit 1, hdigit 2, fun a ha => ?_, exec_unchangedExcept hbcd⟩
    exact s.mem.read_writeBytes_outside fun ⟨hlo, hhi⟩ => ha ⟨hlo, Nat.le_of_lt_succ hhi⟩
  case straddles => rw [execBcd_error (by omega), Nat.max_eq_right (by omega)]
  case beyond => rw [execBcd_error (by omega), Nat.max_eq_left hb]

/-! ## LD I,addr, ADD I,Vx and LD I,FONT(Vx) -/

/-- The whole byte times the glyph size does not wrap: 255 * 5 is below 65536 (R122). -/
theorem toNat_zextByte_mul_glyphBytes (b : Byte) :
    (zextByte b * BitVec.ofNat 16 Config.glyphBytes).toNat = b.toNat * 5 := by
  have hb := b.isLt
  rw [BitVec.toNat_mul, toNat_zextByte]
  exact Nat.mod_eq_of_lt (by simp; omega)

/-- Settles O32: each is one `setI`; the address and the product do not wrap, the sum wraps at 65536. -/
theorem indexRegisterWrites : Obligations.IndexRegisterWrites := by
  intro addr x s
  refine ⟨encodedAs_of_opcodeRow rfl rfl, encodedAs_of_opcodeRow rfl rfl, encodedAs_of_opcodeRow rfl rfl,
    ⟨_, rfl, toNat_zextAddr addr, exec_unchangedExcept (i := .ldI addr) rfl⟩,
    ⟨_, rfl, ?sum, exec_unchangedExcept (i := .addI x) rfl⟩,
    ⟨_, rfl, toNat_zextByte_mul_glyphBytes (s.reg x), exec_unchangedExcept (i := .ldIFont x) rfl⟩⟩
  case sum => rw [State.setI_i, BitVec.toNat_add, toNat_zextByte]

end Sys2Proof.Machine
end

section
/-! PROOFS. The statements about the display (spec/43_display.md): CLS, what DRAW answers when its rows exist and when
they do not, and drawing twice. -/

namespace Sys2Proof.Machine

/-! ## CLS -/

/-- Settles O40: CLS is one `setDisp`, and the blank display has no pixel set. -/
theorem clsClearsTheDisplay : Obligations.ClsClearsTheDisplay :=
  ⟨rfl, fun _ => ⟨_, rfl, Display.lit_blank, exec_unchangedExcept (i := .cls) rfl⟩⟩

/-! ## DRAW -/

/-- Settles O42: 15 rows are fewer than the 32 lines of the display. -/
theorem drawTogglesNoPixelTwice : Obligations.DrawTogglesNoPixelTwice :=
  fun x y _ h => nodup_spritePixels x y (h.trans (by decide)) 0

/-- DRAW with a row beyond the memory (R131). -/
theorem execDraw_error {x y : Reg} {n : Fin 16} {s : State} (h : ¬(n.val = 0 ∨ s.indexAddress + n.val ≤ 4096)) :
    exec (.draw x y n) s = .fault (.outOfBoundsAddress (max s.indexAddress 4096)) := by
  rw [exec, execDraw, memRead_error h, attempt_error]

section Completed
variable {x y : Reg} {n : Fin 16} {s t : State} (h : exec (.draw x y n) s = .next t)
include h

/-- DRAW that answers a next state had all its rows in memory, toggled its pixels and wrote the flag (R131). -/
theorem exec_draw_next : (n.val = 0 ∨ s.indexAddress + n.val ≤ 4096) ∧
    t = (s.setDisp (togglePixels s.disp (drawnPixels s x y n)).1).setReg .vf
      (flag (togglePixels s.disp (drawnPixels s x y n)).2) := by
  by_cases hb : n.val = 0 ∨ s.indexAddress + n.val ≤ 4096
  · rw [execDraw_ok hb] at h
    exact ⟨hb, (Host.Outcome.next.inj h).symm⟩
  · rw [execDraw_error hb] at h
    cases h

/-- The display after DRAW: the pixels that it toggles are inverted, every other one is kept (R131). -/
theorem exec_draw_lit (p : Pixel) :
    t.disp.lit p = if p ∈ drawnPixels s x y n then !s.disp.lit p else s.disp.lit p := by
  obtain ⟨-, rfl⟩ := exec_draw_next h
  exact togglePixels_lit _ _ (nodup_drawnPixels s x y n) p

/-- VF after DRAW is 1 exactly when a pixel that the sprite covers was set (R131). -/
theorem exec_draw_vf_eq_one_iff : t.reg 15 = 1 ↔ ∃ p, SpriteCovers s x y n p ∧ s.disp.lit p = true := by
  obtain ⟨-, rfl⟩ := exec_draw_next h
  rw [State.setReg_reg_self, flag_eq_one_iff, collision_drawnPixels]

theorem exec_draw_vf_eq_zero (hclear : ¬∃ p, SpriteCovers s x y n p ∧ s.disp.lit p = true) : t.reg 15 = 0 := by
  obtain ⟨-, rfl⟩ := exec_draw_next h
  rw [State.setReg_reg_self, Bool.eq_false_iff.2 (mt collision_drawnPixels.1 hclear)]
  rfl

/-- A DRAW with its coordinates outside VF leaves the sprite where it was: the next one toggles the same pixels
(R131 (g)). -/
theorem exec_draw_drawnPixels (hx : x ≠ 15) (hy : y ≠ 15) : drawnPixels t x y n = drawnPixels s x y n := by
  obtain ⟨-, rfl⟩ := exec_draw_next h
  rw [drawnPixels, State.setReg_reg_of_ne hx, State.setReg_reg_of_ne hy]
  rfl

end Completed

/-- Settles O41: `execDraw_ok` with the display and the flag it leaves, and `execDraw_error` beyond the memory. The
fault's address is decisions D3 and D4. -/
theorem drawXorsTheSprite : Obligations.DrawXorsTheSprite := by
  intro x y n s
  refine ⟨encodedAs_of_opcodeRow rfl rfl, fun hb => ?draws, fun hn hb => ?faults⟩
  case draws =>
    have hdraw := execDraw_ok (x := x) (y := y) (n := n) (s := s) (by omega)
    refine ⟨_, hdraw, fun p hp => ?covered, fun p hp => ?kept, (exec_draw_vf_eq_one_iff hdraw).2,
      exec_draw_vf_eq_zero hdraw, fun r hr => ?regs, exec_unchangedExcept hdraw⟩
    case covered => rw [exec_draw_lit hdraw, if_pos (mem_drawnPixels.2 hp)]
    case kept => rw [exec_draw_lit hdraw, if_neg (mt mem_drawnPixels.1 hp)]
    case regs => exact exec_reg_of_not_mayWriteReg hdraw (beq_eq_false_iff_ne.2 hr)
  case faults => rw [execDraw_error (by omega), max_memSize_eq_ite]

/-! ## Drawing twice -/

/-- A display is its pixels (R19). -/
theorem Display.ext_lit {d e : Display} (h : ∀ p, d.lit p = e.lit p) : d = e :=
  Vector.ext fun r hr => BitVec.eq_of_getLsbD_eq fun c hc => h (⟨c, hc⟩, ⟨r, hr⟩)

/-- Settles O43: both draws toggle the same pixels (`exec_draw_drawnPixels`), so each is inverted twice or never; on a
blank display the pixels set before the second draw are the ones that the first one toggled. -/
theorem drawingTwiceRestoresTheDisplay : Obligations.DrawingTwiceRestoresTheDisplay := by
  intro x y n s t hx hy hdraw
  have hsame := exec_draw_drawnPixels hdraw hx hy
  have hrows : n.val = 0 ∨ t.indexAddress + n.val ≤ 4096 := by
    obtain ⟨hb, rfl⟩ := exec_draw_next hdraw
    exact hb
  have hagain := execDraw_ok (x := x) (y := y) hrows
  refine ⟨_, hagain, Display.ext_lit fun p => ?restored, fun hblank => ⟨?first, ?second⟩⟩
  case restored =>
    rw [exec_draw_lit hagain, exec_draw_lit hdraw, hsame]
    by_cases hp : p ∈ drawnPixels s x y n <;> simp [hp]
  case first => exact exec_draw_vf_eq_zero hdraw (by simp [hblank])
  case second =>
    rw [exec_draw_vf_eq_one_iff hagain]
    refine exists_congr fun p => ?_
    rw [← mem_drawnPixels, ← mem_drawnPixels, hsame, exec_draw_lit hdraw, hblank, Display.lit_blank]
    exact and_iff_left_of_imp fun hp => by rw [if_pos hp]; rfl

end Sys2Proof.Machine
end

section
/-! PROOFS. The statements about the keypad and the timers (spec/44_keypad_timers.md): the key skips, LD Vx,KEY with
and without a key pressed, and the timer moves. -/

namespace Sys2Proof.Machine

/-! ## LD Vx,KEY -/

/-- A key is pressed exactly when the list of pressed keys is not empty (R143). -/
theorem pressedKeys_ne_nil {keys : Keys} : pressedKeys keys ≠ [] ↔ ∃ k : Reg, keys[k] = true := by
  simp [pressedKeys_eq_nil]

/-- LD Vx,KEY with no key pressed puts PC back on itself (R143 (a)). -/
theorem exec_ldVxKey_waits {x : Reg} {s : State} (h : ∀ k : Reg, s.key[k] = false) :
    exec (.ldVxKey x) s = .next (s.setPc (s.pc - 2)) := by
  rw [exec, execLdVxKey, if_pos (pressedKeys_eq_nil.2 h)]

/-- LD Vx,KEY with a key pressed writes the number of the picked key (R143 (b)). -/
theorem exec_ldVxKey_reports {x : Reg} {s : State} (h : ∃ k : Reg, s.key[k] = true) :
    exec (.ldVxKey x) s = .next (s.setReg x (BitVec.ofNat 8 (keyPick s.key).val)) := by
  rw [exec, execLdVxKey, if_neg (pressedKeys_ne_nil.2 h)]

/-- Settles O47: `exec_ldVxKey_waits`, and `exec_ldVxKey_reports` with the model's own pick, which obeys the law of
KEYPICK (`keyPickWith_pressed`). The pick is the spec's decision D9. -/
theorem ldVxKeyReportsAPressedKey : Obligations.LdVxKeyReportsAPressedKey := by
  refine ⟨fun x => encodedAs_of_opcodeRow rfl rfl, fun x s hnone => ?waits,
    keyPick, fun keys hsome => keyPickWith_pressed _ (pressedKeys_ne_nil.2 hsome), fun x s hsome => ?reports⟩
  case waits => exact ⟨_, exec_ldVxKey_waits hnone, rfl, (UnchangedExcept.refl _ s).setPc _⟩
  case reports =>
    exact ⟨_, exec_ldVxKey_reports hsome, fun r => s.setReg_reg x r _, (UnchangedExcept.refl _ s).setReg _ _⟩

/-- Going back by 2 undoes the fetch's advance of PC, and the fetch has changed nothing else (R43). -/
theorem fetched_setPc_sub_two (s : State) : (fetched s).setPc ((fetched s).pc - 2) = s := by
  have hpc : (fetched s).pc - 2 = s.pc := BitVec.add_sub_cancel s.pc 2
  rw [hpc]
  rfl

/-- Settles O48: past the fetch LD Vx,KEY only goes back by 2, which undoes the fetch (`fetched_setPc_sub_two`). -/
theorem keyWaitLeavesTheWholeState : Obligations.KeyWaitLeavesTheWholeState := by
  intro x s hp hd hnone
  calc step s
      = exec (.ldVxKey x) (fetched s) := step_exec hp hd
    _ = .next ((fetched s).setPc ((fetched s).pc - 2)) := exec_ldVxKey_waits hnone
    _ = .next s := by rw [fetched_setPc_sub_two]

/-! ## SKP and SKNP -/

/-- The flag of a key numbered below 16 (R140). -/
theorem keyFlag_ok {s : State} {b : Byte} {k : Fin 16} (h : b.toNat = k.val) : keyFlag s b = .ok s.key[k] := by
  simp [keyFlag, h]

/-- A key number above 15 has no flag, and is not masked (R140). -/
theorem keyFlag_error {s : State} {b : Byte} (h : 16 ≤ b.toNat) :
    keyFlag s b = .error (.invalidKeyIndex b.toNat) :=
  dif_neg (Nat.not_lt.2 h)

/-- A skip on the negation of a flag. -/
theorem exec_skip_not {i : Instr} {s : State} {c : Bool} (hexec : exec i s = skipIf (!c) s) (hw : writes i = [.pc]) :
    ∃ t, exec i s = .next t ∧ t.pc = (if c then s.pc else s.pc + 2) ∧ UnchangedExcept [.pc] s t := by
  cases c <;> exact exec_skip_spec hexec hw

/-- Settles O45: with a flag (`keyFlag_ok`) SKP is a skip on it and SKNP a skip on its negation; without one
(`keyFlag_error`) both raise the fault. -/
theorem keySkipsTestTheNumberedKey : Obligations.KeySkipsTestTheNumberedKey := by
  intro x s
  refine ⟨encodedAs_of_opcodeRow rfl rfl, encodedAs_of_opcodeRow rfl rfl, fun k hk => ⟨?skp, ?sknp⟩,
    fun hx => ⟨?skpFault, ?sknpFault⟩⟩
  case skp =>
    have hskip : exec (.skp x) s = skipIf s.key[k] s := by rw [exec, execSkp, keyFlag_ok hk, attempt_ok]
    exact exec_skip_spec hskip rfl
  case sknp =>
    have hskip : exec (.sknp x) s = skipIf (!s.key[k]) s := by rw [exec, execSknp, keyFlag_ok hk, attempt_ok]
    exact exec_skip_not hskip rfl
  case skpFault => rw [exec, execSkp, keyFlag_error hx, attempt_error]
  case sknpFault => rw [exec, execSknp, keyFlag_error hx, attempt_error]

/-! ## Timers -/

/-- Settles O46: each is one `setReg`, `setDt` or `setSt`, whose frame is the instruction's. -/
theorem timerMoves : Obligations.TimerMoves := by
  intro x s
  exact ⟨encodedAs_of_opcodeRow rfl rfl, encodedAs_of_opcodeRow rfl rfl, encodedAs_of_opcodeRow rfl rfl,
    ⟨_, rfl, fun r => s.setReg_reg x r s.dt, exec_unchangedExcept (i := .ldVxDt x) rfl⟩,
    ⟨_, rfl, rfl, exec_unchangedExcept (i := .ldDtVx x) rfl⟩,
    ⟨_, rfl, rfl, exec_unchangedExcept (i := .ldStVx x) rfl⟩⟩

end Sys2Proof.Machine
end

section
/-! PROOFS. The statements about faults and the host operations (spec/60_exceptions.md): when an instruction and a STEP
fault, TICK and BEEPING, SETKEY, DISPLAY, and which operations can end a fault. -/

namespace Sys2Proof.Machine

/-! ## An answer that is a given fault, or a next state -/

/-- An answer is the fault that a table gives, and a next state where the table gives none (R150, R151). -/
def FaultsExactly (r : Result) : Option Fault → Prop
  | some f => r = .fault f
  | none => ∃ t, r = .next t

namespace FaultsExactly

variable {r : Result} {o : Option Fault}

theorem fault_iff (h : FaultsExactly r o) {f : Fault} : r = .fault f ↔ o = some f := by
  cases o with
  | none =>
    obtain ⟨t, rfl⟩ := h
    simp
  | some g =>
    obtain rfl : r = .fault g := h
    simp

theorem ne_refused (h : FaultsExactly r o) (q : Refusal) : r ≠ .refused q := by
  cases o with
  | none =>
    obtain ⟨t, rfl⟩ := h
    simp
  | some g =>
    obtain rfl : r = .fault g := h
    simp

/-- A next state is the answer exactly where the table gives no fault. -/
theorem next_iff (h : FaultsExactly r o) : (∃ t, r = .next t) ↔ o = none := by
  refine ⟨fun ⟨t, ht⟩ => ?_, fun ho => by subst ho; exact h⟩
  refine Option.eq_none_iff_forall_ne_some.2 fun f hf => ?_
  cases ht.symm.trans (h.fault_iff.2 hf)

/-- A table entry with one condition. -/
theorem of_ite {c : Prop} [Decidable c] {f : Fault} (hfault : c → r = .fault f) (hnext : ¬c → ∃ t, r = .next t) :
    FaultsExactly r (if c then some f else none) := by
  split
  · exact hfault ‹_›
  · exact hnext ‹_›

/-- The table entry of an access to k bytes from a (R42). -/
theorem of_access {a k : Nat} (hnext : k = 0 ∨ a + k ≤ 4096 → ∃ t, r = .next t)
    (hfault : ¬(k = 0 ∨ a + k ≤ 4096) → r = .fault (.outOfBoundsAddress (max a 4096))) :
    FaultsExactly r (accessFault a k) := by
  rw [accessFault, ← max_memSize_eq_ite]
  exact of_ite (fun _ => hfault (by omega)) (fun _ => hnext (by omega))

end FaultsExactly

/-! ## Faults in execution -/

/-- Every instruction answers by the fault table (R151). -/
theorem exec_faultsExactly (i : Instr) (s : State) : FaultsExactly (exec i s) (execFault i s) := by
  cases i with
  | call addr =>
    refine .of_ite exec_call_full fun h => ?_
    have hlt : s.sp.val < 16 := by omega
    exact ⟨_, exec_call_ok (k := ⟨s.sp.val, hlt⟩) rfl⟩
  | ret =>
    refine .of_ite exec_ret_empty fun h => ?_
    have hlt : s.sp.val - 1 < 16 := by omega
    exact ⟨_, exec_ret_ok (k := ⟨s.sp.val - 1, hlt⟩) (Nat.succ_pred h).symm⟩
  | draw => exact .of_access (fun h => ⟨_, execDraw_ok h⟩) execDraw_error
  | bcd => exact .of_access (fun h => ⟨_, execBcd_ok (by omega)⟩) fun h => execBcd_error (by omega)
  | store => exact .of_access (fun h => ⟨_, execStore_ok (by omega)⟩) fun h => execStore_error (by omega)
  | load => exact .of_access (fun h => ⟨_, execLoad_ok (h.resolve_left nofun)⟩) fun h => execLoad_error (by omega)
  | skp x =>
    obtain ⟨-, -, hnext, hfault⟩ := keySkipsTestTheNumberedKey x s
    refine .of_ite (fun h => (hfault h).1) fun h => ?_
    obtain ⟨⟨t, ht, -⟩, -⟩ := hnext ⟨_, Nat.lt_of_not_le h⟩ rfl
    exact ⟨t, ht⟩
  | sknp x =>
    obtain ⟨-, -, hnext, hfault⟩ := keySkipsTestTheNumberedKey x s
    refine .of_ite (fun h => (hfault h).2) fun h => ?_
    obtain ⟨-, t, ht, -⟩ := hnext ⟨_, Nat.lt_of_not_le h⟩ rfl
    exact ⟨t, ht⟩
  | ldVxKey =>
    by_cases h : pressedKeys s.key = []
    · exact ⟨_, exec_ldVxKey_waits (pressedKeys_eq_nil.1 h)⟩
    · exact ⟨_, exec_ldVxKey_reports (pressedKeys_ne_nil.1 h)⟩
  | _ => exact ⟨_, rfl⟩

/-- Settles O9: `exec_faultsExactly`. That the table gives each fault's information is decision D3. -/
theorem execFaultsExactlyByTheTable : Obligations.ExecFaultsExactlyByTheTable :=
  fun i s => ⟨fun _ => (exec_faultsExactly i s).fault_iff, (exec_faultsExactly i s).next_iff.2⟩

/-! ## Faults of a STEP, by stage -/

theorem stepFault_beyond {s : State} (hp : 4094 < s.pc.toNat) :
    stepFault s = some (.outOfBoundsAddress (max s.pc.toNat 4096)) := by
  rw [stepFault, if_pos (Nat.succ_le_of_lt hp), max_memSize_eq_ite]

theorem stepFault_unknown {s : State} (hp : s.pc.toNat ≤ 4094) (hd : decode (wordAtPc s) = none) :
    stepFault s = some (.unknownOpcode (wordAtPc s)) := by
  rw [stepFault, if_neg (by omega)]
  simp only [hd]

theorem stepFault_exec {s : State} {i : Instr} (hp : s.pc.toNat ≤ 4094) (hd : decode (wordAtPc s) = some i) :
    stepFault s = execFault i (fetched s) := by
  rw [stepFault, if_neg (by omega)]
  simp only [hd]

/-- A STEP answers by its first faulting stage (R154). -/
theorem step_faultsExactly (s : State) : FaultsExactly (step s) (stepFault s) := by
  by_cases hp : s.pc.toNat ≤ 4094
  · cases hd : decode (wordAtPc s) with
    | none =>
      rw [stepFault_unknown hp hd]
      exact step_unknown hp hd
    | some i =>
      rw [stepFault_exec hp hd, step_exec hp hd]
      exact exec_faultsExactly i (fetched s)
  · rw [stepFault_beyond (by omega)]
    exact step_beyond (by omega)

/-- STEP(rnd) answers by the same stages, whatever rnd: RND does not fault (R111, R154). -/
theorem stepWith_faultsExactly (rnd : Byte) (s : State) : FaultsExactly (stepWith rnd s) (stepFault s) := by
  rcases step_rnd_or_eq_stepWith s with ⟨hp, x, imm, hd⟩ | heq
  · rw [stepFault_exec hp hd]
    exact ⟨_, stepWith_rnd hp hd⟩
  · rw [heq]
    exact step_faultsExactly s

/-- Settles O8: `step_faultsExactly`. The conditions and their order are decisions D3 and D19. -/
theorem stepFaultsExactlyByStage : Obligations.StepFaultsExactlyByStage :=
  ⟨fun s _ => (step_faultsExactly s).fault_iff, fun s => (step_faultsExactly s).ne_refused⟩

/-- A STEP(rnd) completes, for every rnd, where the step with the model's own draw does. -/
theorem stepWith_completes {s t : State} (h : step s = .next t) (rnd : Byte) : ∃ u, stepWith rnd s = .next u :=
  (stepWith_faultsExactly rnd s).next_iff.2 ((step_faultsExactly s).next_iff.1 ⟨t, h⟩)

/-! ## TICK and BEEPING -/

theorem countDown_toNat (x : Byte) : (countDown x).toNat = x.toNat - 1 := by
  unfold countDown
  split
  · subst x
    rfl
  · bv_omega

theorem tick_st_toNat (s : State) : (tick s).st.toNat = s.st.toNat - 1 :=
  countDown_toNat s.st

theorem tick_beep (s : State) : (tick s).beep = decide (0 < s.st.toNat) := by
  have hst : s.st ≠ 0 ↔ 0 < s.st.toNat := (not_congr BitVec.toNat_eq).trans Nat.pos_iff_ne_zero.symm
  exact Bool.eq_iff_iff.2 (bne_iff_ne.trans (hst.trans decide_eq_true_iff.symm))

namespace UnchangedExcept

variable {w : List Component} {s t : State}

theorem setBeep (h : UnchangedExcept w s t) (b : Bool) (hw : .beep ∈ w := by simp) :
    UnchangedExcept w s (t.setBeep b) :=
  h.update hw fun c hc => by cases c <;> simp [Component.same] at hc ⊢

theorem setKey (h : UnchangedExcept w s t) (k : Reg) (b : Bool) (hw : .key ∈ w := by simp) :
    UnchangedExcept w s (t.setKey k b) :=
  h.update hw fun c hc => by cases c <;> simp [Component.same] at hc ⊢

theorem mono {w' : List Component} (h : UnchangedExcept w s t) (hw : w ⊆ w') : UnchangedExcept w' s t :=
  fun c hc => h c fun hmem => hc (hw hmem)

end UnchangedExcept

theorem tick_unchangedExcept (s : State) : UnchangedExcept [.dt, .st, .beep] s (tick s) :=
  (((UnchangedExcept.refl _ s).setDt _).setSt _).setBeep _

/-- Settles O49: `countDown_toNat` for both timers, `tick_beep` for the latch, `tick_unchangedExcept` for the rest. -/
theorem tickCountsDownAndLatchesBeep : Obligations.TickCountsDownAndLatchesBeep :=
  fun s => ⟨tick s, rfl, countDown_toNat s.dt, tick_st_toNat s, by rw [tick_beep, decide_eq_true_iff],
    tick_unchangedExcept s⟩

/-- A run of TICKs cannot fault (R158). -/
theorem performAll_ticks (n : Nat) (s : State) : performAll (List.replicate n .tick) s = .next (tick^[n] s) := by
  induction n generalizing s with
  | zero => rfl
  | succ n ih => exact ih (tick s)

theorem iterate_tick_st_toNat (n : Nat) (s : State) : (tick^[n] s).st.toNat = s.st.toNat - n := by
  induction n with
  | zero => rfl
  | succ n ih => rw [Function.iterate_succ_apply', tick_st_toNat, ih, Nat.sub_sub]

/-- Settles O50: the last TICK latches whether ST, counted down j times from vx, was above zero. -/
theorem beepLastsExactlyTheSoundTimer : Obligations.BeepLastsExactlyTheSoundTimer := by
  intro x s t j h
  cases h
  refine ⟨_, performAll_ticks (j + 1) _, ?_, iterate_tick_st_toNat (j + 1) _⟩
  rw [beeping, Function.iterate_succ_apply', tick_beep, iterate_tick_st_toNat]
  exact decide_eq_decide.2 Nat.sub_pos_iff_lt

/-! ## SETKEY -/

/-- A flag reads back what was written to it, and every other flag keeps its value (R160). -/
theorem State.setKey_getElem (s : State) (k j : Reg) (b : Bool) :
    (s.setKey k b).key[j] = if j.val = k.val then b else s.key[j] := by
  rw [State.setKey_key]
  exact (Vector.getElem_set k.isLt j.isLt).trans (if_congr eq_comm rfl rfl)

/-- SETKEY of a key number 0 to 15 (R160). -/
theorem setKeyFlag_ok (k : Reg) (pressed : Bool) (s : State) :
    setKeyFlag k.val pressed s = .next (s.setKey k pressed) := by
  have hk : Fin.ofNat 16 (k.val : Int).toNat = k := Fin.ofNat_val_eq_self k
  rw [setKeyFlag, if_pos (by omega), hk]

/-- SETKEY of any other index (R160). -/
theorem setKeyFlag_error {index : Int} {pressed : Bool} {s : State} (h : index < 0 ∨ 15 < index) :
    setKeyFlag index pressed s = .fault (.invalidKeyIndex index) :=
  if_neg (by omega)

/-- Settles O51: an index from 0 to 15 is a key number, whose flag `setKeyFlag_ok` writes; `setKeyFlag_error` is the
other integers. -/
theorem setKeyWritesOneFlag : Obligations.SetKeyWritesOneFlag := by
  refine fun index pressed s => ⟨fun h => ?_, setKeyFlag_error⟩
  obtain ⟨k, rfl⟩ : ∃ k : Reg, index = k.val :=
    ⟨⟨index.toNat, by omega⟩, (Int.toNat_of_nonneg h.1).symm⟩
  refine ⟨_, setKeyFlag_ok k pressed s, fun j => ?_, (UnchangedExcept.refl _ s).setKey k pressed⟩
  rw [State.setKey_getElem]
  exact if_congr Int.ofNat_inj.symm rfl rfl

/-! ## DISPLAY -/

/-- The linear index of a pixel leads back to it (R19). -/
theorem pixelAt_linear (p : Pixel) (h : p.1.val + 64 * p.2.val < 2048) : pixelAt ⟨p.1.val + 64 * p.2.val, h⟩ = p := by
  have hx : (p.1.val + 64 * p.2.val) % 64 = p.1.val := by omega
  have hy : (p.1.val + 64 * p.2.val) / 64 = p.2.val := by omega
  exact Prod.ext (Fin.ext hx) (Fin.ext hy)

/-- Settles O44: DISPLAY reads the pixel of the index, which `pixelAt_linear` finds. -/
theorem displayIsRowMajor : Obligations.DisplayIsRowMajor := by
  intro s p h
  calc (display s)[p.1.val + 64 * p.2.val]
      = s.disp.lit (pixelAt ⟨p.1.val + 64 * p.2.val, h⟩) := Vector.getElem_ofFn h
    _ = s.disp.lit p := by rw [pixelAt_linear]

/-! ## What a fault depends on -/

/-- The components that TICK and SETKEY write (R158, R160). -/
abbrev timersAndKeys : List Component := [.dt, .st, .beep, .key]

/-- No fault of an instruction depends on the timers, BEEP or the keys' flags: only SP, I and V decide (R151). -/
theorem execFault_congr {i : Instr} {s t : State} (hsp : t.sp = s.sp) (hi : t.i = s.i)
    (hv : ∀ r, t.reg r = s.reg r) : execFault i t = execFault i s := by
  have ha : t.indexAddress = s.indexAddress := congrArg BitVec.toNat hi
  cases i with
  | call | ret => simp only [execFault, hsp]
  | draw | bcd | store | load => simp only [execFault, ha]
  | skp | sknp => simp only [execFault, hv]
  | _ => rfl

/-- Nor does the fault of a STEP, which reads PC and the two bytes there besides (R43, R154). -/
theorem stepFault_congr {s t : State} (h : UnchangedExcept timersAndKeys s t) : stepFault t = stepFault s := by
  have hpc : t.pc = s.pc := h .pc (by decide)
  have hword : wordAtPc t = wordAtPc s := by
    have hmem : ∀ a, t.mem.read a = s.mem.read a := h .mem (by decide)
    rw [wordAtPc, wordAtPc, hpc, hmem, hmem]
  have hexec : ∀ i, execFault i (fetched t) = execFault i (fetched s) :=
    fun i => execFault_congr (h .sp (by decide)) (h .i (by decide)) (h .v (by decide))
  simp only [stepFault, hpc, hword, hexec]

/-! ## The operations that cannot end a fault -/

/-- In a state whose STEP faults, an operation that is no RESET and no LOAD leaves all but the timers and the keys: the
STEP faults, and a fault changes nothing (R152). -/
theorem recordAfter_unchangedExcept {op : Operation} {s : State} {f : Fault} (hf : stepFault s = some f)
    (hop : op.canEndFault = false) : UnchangedExcept timersAndKeys s (recordAfter op s) := by
  have hrefl := UnchangedExcept.refl timersAndKeys s
  cases op with
  | reset | load => cases hop
  | step rnd =>
    have hfault : perform (.step rnd) s = .fault f := (stepWith_faultsExactly rnd s).fault_iff.2 hf
    rwa [recordAfter_fault hfault]
  | tick => exact (tick_unchangedExcept s).mono (by decide)
  | setKey index pressed =>
    by_cases h : index < 0 ∨ 15 < index
    · rwa [recordAfter_fault ((setKeyWritesOneFlag index pressed s).2 h)]
    · obtain ⟨t, ht, -, hframe⟩ := (setKeyWritesOneFlag index pressed s).1 (by omega)
      rw [recordAfter_next ht]
      exact hframe.mono (by decide)

/-- So does every sequence of such operations: each leaves a state whose STEP faults the same way. -/
theorem recordAfterAll_unchangedExcept {ops : List Operation} {s : State} {f : Fault} (hf : stepFault s = some f)
    (hops : ∀ op ∈ ops, op.canEndFault = false) : UnchangedExcept timersAndKeys s (recordAfterAll ops s) := by
  induction ops generalizing s with
  | nil => exact .refl _ s
  | cons op rest ih =>
    obtain ⟨hop, hrest⟩ := List.forall_mem_cons.1 hops
    have hframe := recordAfter_unchangedExcept hf hop
    exact hframe.trans (ih ((stepFault_congr hframe).trans hf) hrest)

/-! ## RESET and LOAD -/

/-- LOAD of an image that fits (R182). -/
theorem loadProgram_ok {bytes : List Byte} {s : State} (h : bytes.length ≤ 3584) :
    loadProgram bytes s = .next (s.setMem (s.mem.writeBytes Config.loadBase bytes)) :=
  if_neg (by rw [Config.loadBase, Config.memSize]; omega)

/-- After RESET the word at PC is zero, so a STEP completes (R181). -/
theorem step_resetRecord (s : State) : step (resetRecord s) = .next (fetched (resetRecord s)) := by
  have hpc : (resetRecord s).pc.toNat = 0x200 := rfl
  exact step_zero_word (by omega) (initialByte_above_font (by omega)) (initialByte_above_font (by omega))

/-- An image of zeros over the word at PC makes the STEP there a NOP (R80, R182). -/
theorem exists_load_step {s : State} (hlo : 0x200 ≤ s.pc.toNat) (hhi : s.pc.toNat ≤ 4094) :
    ∃ bytes t, loadProgram bytes s = .next t ∧ step t = .next (fetched t) := by
  obtain ⟨j, hj⟩ := Nat.exists_eq_add_of_le hlo
  have hlen : (List.replicate (j + 2) (0 : Byte)).length = j + 2 := List.length_replicate
  refine ⟨List.replicate (j + 2) 0, _, loadProgram_ok (by omega), step_zero_word hhi ?_ ?_⟩
  all_goals
    simp only [State.setMem_pc, State.setMem_mem, hj, Nat.add_assoc]
    rw [Memory.read_writeBytes_inside _ _ (by omega), List.getElem_replicate]

/-- Settles O53: no STEP, TICK or SETKEY reaches what the fault depends on (`recordAfterAll_unchangedExcept`,
`stepFault_congr`); after RESET (`step_resetRecord`) and after a LOAD of zeros (`exists_load_step`) a STEP completes,
and no LOAD moves PC. That a fault changes nothing is decision D2 (notes/assumptions/6). -/
theorem onlyLoadAndResetEndAFault : Obligations.OnlyLoadAndResetEndAFault := by
  refine ⟨fun ops s rnd f h hops => ?stays, fun s => ?reset, fun s hlo hhi => ?load, fun s t bytes rnd hp h => ?beyond⟩
  case stays =>
    have hf : stepFault s = some f := (stepWith_faultsExactly rnd s).fault_iff.1 h
    have hframe := recordAfterAll_unchangedExcept hf hops
    exact ⟨hframe, fun rnd' => (stepWith_faultsExactly rnd' _).fault_iff.2 ((stepFault_congr hframe).trans hf)⟩
  case reset => exact ⟨_, rfl, stepWith_completes (step_resetRecord s)⟩
  case load =>
    obtain ⟨bytes, t, ht, hstep⟩ := exists_load_step hlo hhi
    exact ⟨bytes, t, ht, stepWith_completes hstep⟩
  case beyond =>
    obtain ⟨-, rfl⟩ := loadProgram_next h
    exact ⟨_, stepWith_beyond hp, stepWith_beyond hp⟩

end Sys2Proof.Machine
end

section
/-! PROOFS. The statements about reset, LOAD and the finished program (spec/70_reset_and_hazards.md). -/

namespace Sys2Proof.Machine

/-! ## The finished program -/

/-- Settles O21: the JMP goes back to where PC was before the fetch, and the fetch has changed nothing but PC. That
such a state counts as finished is the convention of decision D15. -/
theorem finishedIsAFixedPoint : Obligations.FinishedIsAFixedPoint := by
  rintro s ⟨hp, addr, hd, haddr⟩
  have htarget : zextAddr addr = s.pc := BitVec.eq_of_toNat_eq ((toNat_zextAddr addr).trans haddr)
  calc step s
      = exec (.jmp addr) (fetched s) := step_exec hp hd
    _ = .next ((fetched s).setPc (zextAddr addr)) := rfl
    _ = .next s := by rw [htarget]; rfl

/-! ## LOAD -/

/-- LOAD of an image that does not fit (R182). -/
theorem loadProgram_error {bytes : List Byte} {s : State} (h : 3584 < bytes.length) :
    loadProgram bytes s = .fault (.programTooLarge bytes.length) :=
  if_pos (by rw [Config.loadBase, Config.memSize]; omega)

/-- Settles O52: `loadProgram_ok` and the reads after a block of bytes is stored, inside and outside it; a longer image
is `loadProgram_error`. -/
theorem loadCopiesTheImage : Obligations.LoadCopiesTheImage := by
  refine fun bytes s => ⟨fun h => ⟨_, loadProgram_ok h, fun j hj => ?inside, fun a ha => ?outside, ?frame⟩,
    loadProgram_error⟩
  case inside => exact s.mem.read_writeBytes_inside _ hj
  case outside => exact s.mem.read_writeBytes_outside ha
  case frame => exact (UnchangedExcept.refl _ s).setMem _

/-! ## RESET -/

/-- RESET's record is the reset state but for the model's own counter (R180). -/
theorem resetRecord_unchangedExcept (s : State) : UnchangedExcept [.draws] State.reset (resetRecord s) := by
  intro c hc
  cases c with
  | draws => exact absurd List.mem_cons_self hc
  | mem | v => exact fun _ => rfl
  | _ => rfl

/-- Settles O11: the RESET operation answers `resetRecord`, which keeps the counter of the state before
(notes/assumptions/1). -/
theorem resetOperationForgetsTheState : Obligations.ResetOperationForgetsTheState :=
  fun s => ⟨resetRecord s, rfl, resetRecord_unchangedExcept s, rfl⟩

/-! ## Steps from reset without a program -/

/-- The step after a run of k that all completed is the last one of a run of k + 1. -/
theorem stepTimes_succ_eq_step {k : Nat} {s t : State} (h : stepTimes k s = .next t) :
    stepTimes (k + 1) s = step t := by
  induction k generalizing s with
  | zero =>
    cases h
    simp only [stepTimes]
    cases step t <;> rfl
  | succ k ih =>
    cases hs : step s with
    | next u =>
      rw [stepTimes_succ_of_next hs] at h ⊢
      exact ih h
    | fault | refused => simp [stepTimes, hs] at h

/-- Reset memory is zero from PC = 0x200 on, so k words of it run as NOPs (R181; zero memory is decision D6). -/
theorem stepTimes_reset {k : Nat} (hk : k ≤ 1792) :
    stepTimes k State.reset = .next { State.reset with pc := BitVec.ofNat 16 (0x200 + 2 * k) } := by
  have hpc : State.reset.pc.toNat = 0x200 := rfl
  rw [BitVec.ofNat_add]
  exact zeroedWordsRunAsNops k State.reset (by omega) fun a hlo _ => initialByte_above_font (by omega)

/-- Settles O12: `stepTimes_reset` up to the end of memory; 1792 steps leave PC = 4096, where the fetch faults. -/
theorem stepsFromResetAreNopsUntilTheEnd : Obligations.StepsFromResetAreNopsUntilTheEnd :=
  ⟨fun _ => stepTimes_reset, (stepTimes_succ_eq_step (stepTimes_reset le_rfl)).trans (step_beyond (by decide))⟩

end Sys2Proof.Machine
end
